-- ==== Sys2Proof/Word.lean ====
section
/-! DEFINITION. The word types of the B64LPE (00_scope.md R5, R6): registers and addresses of 32 bits, bytes,
and the 6-bit values (sextets) that the lookup tables are indexed by. -/

namespace Sys2Proof

/-- A register value, an address of the external memory, or a command word. -/
abbrev Word := BitVec 32

/-- One byte of a group or of the external memory. -/
abbrev Byte := BitVec 8

/-- A 6-bit value, the unit a Base64 character stands for (R11). -/
abbrev Sextet := BitVec 6

end Sys2Proof
end

