-- ==== Sys2Proof/Syntax.lean ====
section
/-! DEFINITION. The commands of the B64LPE, one constructor per row of opcode_table.json (30_encoding.md R72).
Register operands are implicit in the opcode (R71, R73); the only immediates are N and F. -/

namespace Sys2Proof

/-- The DIR flag of ACLASS (30_encoding.md R72): which side's classification is reported. -/
inductive Side where
  | encodeSide
  | decodeSide
deriving DecidableEq, Repr

/-- A command. `enc3` carries the byte count N, `dec4` and `dec8` the FINAL flag, `aclass` the DIR flag. -/
inductive Instr where
  | flookup
  | rlookup
  | enc3 (n : BitVec 2)
  | enc12
  | dec4 (final : Bool)
  | dec8 (final : Bool)
  | aclass (dir : Side)
  | encode
  | decode
deriving DecidableEq, Repr

end Sys2Proof
end

