-- ==== Sys2Proof/WellFormed.lean ====
section
/-! DEFINITION. The terms of `Instr` that the encoding admits (30_encoding.md R72, R74). -/

namespace Sys2Proof

/-- N is 1, 2 or 3 for ENC3; N = 0 is an illegal word (R74). Every other term is a legal command. -/
def wellFormed : Instr → Bool
  | .flookup => true
  | .rlookup => true
  | .enc3 n => n != 0
  | .enc12 => true
  | .dec4 _ => true
  | .dec8 _ => true
  | .aclass _ => true
  | .encode => true
  | .decode => true

end Sys2Proof
end

