-- ==== Sys2Proof/Decode.lean ====
section
/-! DEFINITION. Decoding and encoding of the command word (30_encoding.md R70 to R75), and the assembler text
of R76. -/

namespace Sys2Proof

/-- Why a command word is illegal (R74). -/
inductive Illegal where
  /-- RSV, bits 31:7, is not 0. -/
  | reservedBits
  /-- OP is 0x0 or 0xA to 0xF. -/
  | reservedOpcode
  /-- N is not what the operation takes: not 0, or 0 for ENC3. -/
  | badCount
  /-- F is set for an operation without a flag. -/
  | badFlag
deriving DecidableEq, Repr

/-- What the decoder reads from a command word: a command, or an illegal word with the reason. -/
inductive Decoded where
  | instr (i : Instr)
  | illegal (why : Illegal)
deriving DecidableEq, Repr

/-- OP, bits 3:0 (R70). -/
def opField (cw : Word) : BitVec 4 := cw.extractLsb' 0 4

/-- N, bits 5:4 (R70). -/
def countField (cw : Word) : BitVec 2 := cw.extractLsb' 4 2

/-- F, bit 6 (R70). -/
def flagField (cw : Word) : Bool := cw.getLsbD 6

/-- RSV, bits 31:7 (R70). -/
def rsvField (cw : Word) : BitVec 25 := cw.extractLsb' 7 25

/-- An operation that takes neither a count nor a flag: N and F must be 0. -/
def plainOp (n : BitVec 2) (f : Bool) (i : Instr) : Decoded :=
  if n ≠ 0 then .illegal .badCount else if f then .illegal .badFlag else .instr i

/-- An operation with a flag and no count: N must be 0. -/
def flaggedOp (n : BitVec 2) (i : Instr) : Decoded :=
  if n ≠ 0 then .illegal .badCount else .instr i

/-- ENC3: N must not be 0 and F must be 0. -/
def countedOp (n : BitVec 2) (f : Bool) : Decoded :=
  if n = 0 then .illegal .badCount else if f then .illegal .badFlag else .instr (.enc3 n)

/-- DIR (R72): 0 the encode side, 1 the decode side. -/
def sideOf (f : Bool) : Side := if f then .decodeSide else .encodeSide

/-- The decoding procedure of R75, total on every 32-bit word. -/
def decode (cw : Word) : Decoded :=
  if rsvField cw ≠ 0 then .illegal .reservedBits
  else match (opField cw).toNat with
    | 1 => plainOp (countField cw) (flagField cw) .flookup
    | 2 => plainOp (countField cw) (flagField cw) .rlookup
    | 3 => countedOp (countField cw) (flagField cw)
    | 4 => plainOp (countField cw) (flagField cw) .enc12
    | 5 => flaggedOp (countField cw) (.dec4 (flagField cw))
    | 6 => flaggedOp (countField cw) (.dec8 (flagField cw))
    | 7 => flaggedOp (countField cw) (.aclass (sideOf (flagField cw)))
    | 8 => plainOp (countField cw) (flagField cw) .encode
    | 9 => plainOp (countField cw) (flagField cw) .decode
    | _ => .illegal .reservedOpcode

/-- The command word of the fields OP, N and F, with RSV = 0 (R70). -/
def commandWord (op : BitVec 4) (n : BitVec 2) (f : Bool) : Word :=
  (0#25 ++ BitVec.ofBool f) ++ (n ++ op)

/-- The DIR flag of a side (R72). -/
def sideFlag : Side → Bool
  | .encodeSide => false
  | .decodeSide => true

/-- The command word of a command, from the opcode map (R72). -/
def encode : Instr → Word
  | .flookup => commandWord 1 0 false
  | .rlookup => commandWord 2 0 false
  | .enc3 n => commandWord 3 n false
  | .enc12 => commandWord 4 0 false
  | .dec4 final => commandWord 5 0 final
  | .dec8 final => commandWord 6 0 final
  | .aclass dir => commandWord 7 0 (sideFlag dir)
  | .encode => commandWord 8 0 false
  | .decode => commandWord 9 0 false

/-- The legal commands, in the order of R72's list of fourteen words. -/
def legalCommands : List Instr :=
  [.flookup, .rlookup, .enc3 1, .enc3 2, .enc3 3, .enc12, .dec4 false, .dec4 true,
   .dec8 false, .dec8 true, .aclass .encodeSide, .aclass .decodeSide, .encode, .decode]

/-- The fourteen legal words, as R72 lists them. -/
def legalWords : List Word :=
  [0x00000001, 0x00000002, 0x00000013, 0x00000023, 0x00000033, 0x00000004, 0x00000005,
   0x00000045, 0x00000006, 0x00000046, 0x00000007, 0x00000047, 0x00000008, 0x00000009]

/-- The instruction the decoder reads from an instruction of `nbits` bits that are `w`, numbered as
opcode_table.json numbers them; the bits above `nbits` are 0. A command is one word (R70): DESIGN CHOICE log 18
says what becomes of bits above 31. -/
def decodeTableWord (nbits w : Nat) : Option Instr :=
  match decode (BitVec.ofNat 32 (w % 2 ^ nbits)) with
  | .instr i => some i
  | .illegal _ => none

/-- The assembler text of a command (R76). -/
def assemblyText : Instr → String
  | .flookup => "FLOOKUP"
  | .rlookup => "RLOOKUP"
  | .enc3 n => "ENC3 " ++ toString n.toNat
  | .enc12 => "ENC12"
  | .dec4 false => "DEC4"
  | .dec4 true => "DEC4.F"
  | .dec8 false => "DEC8"
  | .dec8 true => "DEC8.F"
  | .aclass .encodeSide => "ACLASS.E"
  | .aclass .decodeSide => "ACLASS.D"
  | .encode => "ENCODE"
  | .decode => "DECODE"

/-- The assembler: the command whose text a line is, in a list of commands. -/
def commandOfText (text : String) : List Instr → Option Instr
  | [] => none
  | i :: rest => if assemblyText i = text then some i else commandOfText text rest

/-- The word a line of assembler text assembles to (R76). -/
def assemble (text : String) : Option Word := (commandOfText text legalCommands).map encode

/-- The hexadecimal digit of a 4-bit value. DESIGN CHOICE log 17: capital letters. -/
def hexDigit (d : Nat) : Char := Nat.digitChar d |>.toUpper

/-- A word as eight hexadecimal digits. -/
def hexWord (w : Word) : String :=
  String.ofList ([7, 6, 5, 4, 3, 2, 1, 0].map fun k => hexDigit ((w.extractLsb' (4 * k) 4).toNat))

/-- The disassembler (R76): an illegal word prints as data. -/
def disassemble (w : Word) : String :=
  match decode w with
  | .instr i => assemblyText i
  | .illegal _ => ".word 0x" ++ hexWord w

end Sys2Proof
end

