-- ==== Sys2Proof/Machine/Flags.lean ====
section
/-! DEFINITION. STATUS, the only flags of the machine (10_state.md R24, R37): its fields, the cause codes of
60_exceptions.md R205, and the words that issue and completion write (R200 to R203). -/

namespace Sys2Proof.Machine

/-- The causes of a data-validity failure (60_exceptions.md R202, R205). -/
inductive FailCause where
  | invalidCharacter
  | malformedPadding
deriving DecidableEq, Repr

/-- The causes of a programmer error (60_exceptions.md R203, R205). -/
inductive PerrCause where
  | illegalCommand
  | zeroLength
  | addressRange
  | overlap
deriving DecidableEq, Repr

/-- The CAUSE code of a data-validity failure (R205). -/
def failCode : FailCause → BitVec 4
  | .invalidCharacter => 1
  | .malformedPadding => 2

/-- The CAUSE code of a programmer error (R205). -/
def perrCode : PerrCause → BitVec 4
  | .illegalCommand => 8
  | .zeroLength => 9
  | .addressRange => 10
  | .overlap => 11

/-- STATUS after issue: BUSY = 1, every other field 0 (10_state.md R23). -/
def statusBusy : Word := 0x00000001

/-- STATUS after a success: DONE (R201). -/
def statusOk : Word := 0x00000002

/-- STATUS after a data-validity failure: zext_32(cause : 0b0110) (R202). -/
def statusFail (c : FailCause) : Word := (failCode c ++ 0b0110#4).setWidth 32

/-- STATUS after a programmer error: zext_32(cause : 0b1010) (R203). -/
def statusPerr (c : PerrCause) : Word := (perrCode c ++ 0b1010#4).setWidth 32

/-- STATUS.BUSY, bit 0 (10_state.md R24). -/
def busyFlag (st : Word) : Bool := st.getLsbD 0

/-- STATUS.DONE, bit 1. -/
def doneFlag (st : Word) : Bool := st.getLsbD 1

/-- STATUS.FAIL, bit 2. -/
def failFlag (st : Word) : Bool := st.getLsbD 2

/-- STATUS.PERR, bit 3. -/
def perrFlag (st : Word) : Bool := st.getLsbD 3

/-- STATUS.CAUSE, bits 7:4. -/
def causeField (st : Word) : BitVec 4 := st.extractLsb' 4 4

/-- The reserved bits of STATUS, 31:8, which always read 0. -/
def statusReserved (st : Word) : BitVec 24 := st.extractLsb' 8 24

end Sys2Proof.Machine
end

