-- ==== Sys2Proof/Config.lean ====
section
/-! DEFINITION. What is fixed while the machine runs: the sizes the spec decides, the platform's parameters
(00_scope.md R5), and the free values (00_scope.md R8). The opaque constants have no body: nothing can be
proved about what they are. -/

namespace Sys2Proof

/-- A stretch of addresses, `size` bytes from `base`. -/
structure Region where
  base : Nat
  size : Nat
deriving DecidableEq, Repr, Inhabited

/-- The parameters and the facts about its surroundings that the spec leaves to the platform.
`regBlock` gives REG_BASE as a multiple of 64 (R5, D2); `sentinelLow` the seven low bits of REV_SENTINEL, whose
bit 7 is 1 (R5, D9); `noRead` and `noWrite` where MEM_ADMITS(addr, write) is false (R58, D25); `sharedSpace`
whether the register block and the external memory are one address space (R51, D34); `sideEffects` the locations
that are not ordinary memory (R57). DESIGN CHOICE log 2. -/
structure Platform where
  regBlock    : Nat
  sentinelLow : BitVec 7
  noRead      : List Region
  noWrite     : List Region
  sharedSpace : Bool
  sideEffects : List Region
deriving DecidableEq, Repr, Inhabited

namespace Config

/-- The size of the external memory, 2^32 bytes (20_memory.md R50). -/
abbrev memorySize : Nat := 4294967296

/-- The size of the register block in bytes (10_state.md R21). -/
abbrev regBlockSize : Nat := 64

/-- The platform of the machine right after reset: open (R5). DESIGN CHOICE log 2. -/
opaque platform : Platform

/-- `Any8()` (R8): the n-th free byte. DESIGN CHOICE log 3. -/
opaque freeByte : Nat → Byte

end Config

end Sys2Proof
end

