-- ==== Sys2Proof/Machine/State.lean ====
section
/-! DEFINITION. The machine's state as plain data (10_state.md R20 to R38), the reasons a step can stop, and the
state right after reset (R38). INVENTORY.md lists every field with its rule. -/

namespace Sys2Proof.Machine

/-- The external memory: (address, byte) pairs, addresses strictly rising, no byte equal to what an unlisted
address reads as (20_memory.md R50; log 1). -/
abbrev Memory := List Host.Cell

/-- The copies the Engine latches when a command is issued, and its progress position (10_state.md R35). -/
structure Latched where
  cw       : Word
  src      : Word
  dst      : Word
  len      : Word
  din      : Vector Word 3
  progress : Nat
deriving DecidableEq, Repr

/-- The Engine's phase (10_state.md R35). `stuck` is a Busy Engine held for good at an access the platform does
not back (20_memory.md R58). -/
inductive Phase where
  | idle
  | busy (l : Latched)
  | stuck (l : Latched)
deriving DecidableEq, Repr

/-- The registers of the register block (10_state.md R21). -/
inductive Reg where
  | cmd
  | status
  | src
  | dst
  | len
  | outlen
  | din (i : Fin 3)
  | dout (i : Fin 4)
deriving DecidableEq, Repr

/-- A line of a host script (30_encoding.md R77). Temporaries and labels are named by numbers. -/
inductive Line where
  | wr (r : Reg) (v : Word)
  | rd (r : Reg) (t : Nat)
  | btst (t : Nat) (i : Nat) (target : Nat)
  | beq (t : Nat) (v : Word) (target : Nat)
  | bne (t : Nat) (v : Word) (target : Nat)
  | jmp (target : Nat)
  | halt
  | label (name : Nat)
deriving DecidableEq, Repr

/-- The scripted Host: its script, the index of its next line, and its temporaries (30_encoding.md R77). -/
structure ScriptHost where
  script : List Line
  line   : Nat
  temps  : List (Nat × Word)
deriving DecidableEq, Repr

/-- One turn of an agent (log 4). `engine`: the Engine's completion step (60_exceptions.md R200). `engineAccess`:
the Engine performs one more access of a running buffer operation (log 9). `script`: the scripted Host's next
line. `write`, `read`: a Host's bus access of `width` bits at a byte offset of the register block (10_state.md R22); a read
leaves its value in temporary `t`. `memWrite`, `memRead`: an access of an agent other than the Engine to the
external memory (70_reset_and_hazards.md R242). `reset`: the platform asserts reset (R230). -/
inductive Turn where
  | engine
  | engineAccess
  | script
  | write (width : Nat) (offset : BitVec 6) (v : Word)
  | read (width : Nat) (offset : BitVec 6) (t : Nat)
  | memWrite (addr : Word) (v : Byte)
  | memRead (addr : Word) (t : Nat)
  | reset
deriving DecidableEq, Repr

/-- The whole state. `draws` and `turns` are the model's own (log 3, log 4); `platform` never changes (log 2). -/
structure State where
  status   : Word
  src      : Word
  dst      : Word
  len      : Word
  outlen   : Word
  din      : Vector Word 3
  dout     : Vector Word 4
  phase    : Phase
  mem      : Memory
  host     : ScriptHost
  platform : Platform
  draws    : Nat
  turns    : List Turn
deriving DecidableEq, Repr

/-- Why the machine stops with a fault. -/
inductive Fault where
  /-- A meaning was applied while no command is issued, so there are no latched operands. Raised by every meaning
  in phase Idle and by no step of the machine; safe (log 11). -/
  | noCommand
deriving DecidableEq, Repr

/-- Why the model gives an action no step. Each is an action the spec itself says the model refuses, but for the
last. -/
inductive Refusal where
  /-- An instruction without a meaning: none of this model; safe. -/
  | notModelled (mnemonic : String)
  /-- A register access that is not 32 bits wide (10_state.md R22 (a)). Raised by bus accesses; safe. -/
  | accessWidth
  /-- A register access at an offset that is not a multiple of 4 (R22 (a)). Raised by bus accesses; safe. -/
  | misalignedAccess
  /-- An access to offset 0x34, 0x38 or 0x3C (R22 (b)). Raised by bus accesses; safe. -/
  | reservedOffset
  /-- A CMD write while BUSY = 1 (70_reset_and_hazards.md R240). Raised by bus writes; safe. -/
  | commandWhileBusy
  /-- A foreign write to a buffer of a Busy ENCODE or DECODE (R242 (a)). Raised by memory writes; safe. -/
  | bufferInUse
  /-- A buffer range over the register block in a shared space (20_memory.md R51). Raised by ENCODE, DECODE; safe. -/
  | registerBlockOverlap
  /-- A location with side effects in a buffer range (R57), or accessed by another agent where no Busy range decides
  the access first (log 13). Raised by
  ENCODE, DECODE and the memory accesses of other agents; safe. -/
  | sideEffectLocation
  /-- A script branches to a label it does not define (30_encoding.md R77; log 12). Raised by script lines; safe. -/
  | undefinedLabel
deriving DecidableEq, Repr

/-- The outcomes of a step of this machine. -/
abbrev Out := Host.Outcome State Fault Refusal

/-- The machine right after reset (10_state.md R38): every register 0, the Engine Idle, memory listing nothing, and
no script and no turn yet. -/
def State.reset : State where
  status   := 0
  src      := 0
  dst      := 0
  len      := 0
  outlen   := 0
  din      := #v[0, 0, 0]
  dout     := #v[0, 0, 0, 0]
  phase    := .idle
  mem      := []
  host     := { script := [], line := 0, temps := [] }
  platform := Config.platform
  draws    := 0
  turns    := []

end Sys2Proof.Machine
end

