-- ==== Sys2Proof/Machine/Tables.lean ====
section
/-! DEFINITION. The two read-only memories, written out from 40_lookup.md R100 and R101 (10_state.md R30, R31). No
agent writes them and reset does not change them (70_reset_and_hazards.md R231), so they are constants (log 14). -/

namespace Sys2Proof.Machine

/-- FWD, the ForwardTable, entry by entry (R100). -/
def fwdTable : List Byte :=
  [0x41, 0x42, 0x43, 0x44, 0x45, 0x46, 0x47, 0x48, 0x49, 0x4A, 0x4B, 0x4C, 0x4D, 0x4E, 0x4F, 0x50] ++
  [0x51, 0x52, 0x53, 0x54, 0x55, 0x56, 0x57, 0x58, 0x59, 0x5A, 0x61, 0x62, 0x63, 0x64, 0x65, 0x66] ++
  [0x67, 0x68, 0x69, 0x6A, 0x6B, 0x6C, 0x6D, 0x6E, 0x6F, 0x70, 0x71, 0x72, 0x73, 0x74, 0x75, 0x76] ++
  [0x77, 0x78, 0x79, 0x7A, 0x30, 0x31, 0x32, 0x33, 0x34, 0x35, 0x36, 0x37, 0x38, 0x39, 0x2B, 0x2F]

/-- `FWD[i]` (00_scope.md R8). -/
def fwd (i : Sextet) : Byte := fwdTable.getD i.toNat 0

/-- A row of REV that holds the sentinel only. -/
def sentinelRow : List (Option Sextet) := List.replicate 16 none

/-- Row 0x20 of REV (R101); `none` stands for the sentinel. -/
def revRow2 : List (Option Sextet) :=
  [none, none, none, none, none, none, none, none,
   none, none, none, some 0x3E, none, none, none, some 0x3F]

/-- Row 0x30 of REV (R101); `none` stands for the sentinel. -/
def revRow3 : List (Option Sextet) :=
  [some 0x34, some 0x35, some 0x36, some 0x37, some 0x38, some 0x39, some 0x3A, some 0x3B,
   some 0x3C, some 0x3D, none, none, none, none, none, none]

/-- Row 0x40 of REV (R101); `none` stands for the sentinel. -/
def revRow4 : List (Option Sextet) :=
  [none, some 0x00, some 0x01, some 0x02, some 0x03, some 0x04, some 0x05, some 0x06,
   some 0x07, some 0x08, some 0x09, some 0x0A, some 0x0B, some 0x0C, some 0x0D, some 0x0E]

/-- Row 0x50 of REV (R101); `none` stands for the sentinel. -/
def revRow5 : List (Option Sextet) :=
  [some 0x0F, some 0x10, some 0x11, some 0x12, some 0x13, some 0x14, some 0x15, some 0x16,
   some 0x17, some 0x18, some 0x19, none, none, none, none, none]

/-- Row 0x60 of REV (R101); `none` stands for the sentinel. -/
def revRow6 : List (Option Sextet) :=
  [none, some 0x1A, some 0x1B, some 0x1C, some 0x1D, some 0x1E, some 0x1F, some 0x20,
   some 0x21, some 0x22, some 0x23, some 0x24, some 0x25, some 0x26, some 0x27, some 0x28]

/-- Row 0x70 of REV (R101); `none` stands for the sentinel. -/
def revRow7 : List (Option Sextet) :=
  [some 0x29, some 0x2A, some 0x2B, some 0x2C, some 0x2D, some 0x2E, some 0x2F, some 0x30,
   some 0x31, some 0x32, some 0x33, none, none, none, none, none]

/-- REV, the ReverseTable, row by row (R101); `none` stands for REV_SENTINEL. -/
def revTable : List (Option Sextet) :=
  sentinelRow ++ sentinelRow ++ revRow2 ++ revRow3 ++ revRow4 ++ revRow5 ++ revRow6 ++ revRow7 ++
  sentinelRow ++ sentinelRow ++ sentinelRow ++ sentinelRow ++ sentinelRow ++ sentinelRow ++ sentinelRow ++ sentinelRow

/-- The 6-bit value of an alphabet character; `none` for every other byte (R101). -/
def revIndex (b : Byte) : Option Sextet := (revTable[b.toNat]?).join

/-- REV_SENTINEL: bit 7 is 1, the rest is the platform's (00_scope.md R5). -/
def revSentinel (p : Platform) : Byte := 1#1 ++ p.sentinelLow

/-- `REV[b]` (00_scope.md R8): the value with bits 7:6 = 00, or the sentinel (R101). -/
def rev (p : Platform) (b : Byte) : Byte :=
  match revIndex b with
  | some v => v.setWidth 8
  | none => revSentinel p

/-- `valid(b)` (R103): an alphabet character. It is the same as REV[b][7] = 0 on every platform
(`valid_eq_rev_bit7` in Laws), and is written on the table so that it does not depend on the sentinel. -/
def valid (b : Byte) : Bool := (revIndex b).isSome

/-- The padding character `=` (00_scope.md R6, R104). -/
def padChar : Byte := 0x3D

end Sys2Proof.Machine
end

