-- ==== Sys2Proof/Machine/Operands.lean ====
section
/-! DEFINITION. Operand forms: byte lanes and groups of the data registers (00_scope.md R7), the packing of a Base64
group (R9), the group encode, check and decode functions (41_encode.md R121, 42_decode.md R143 to R146), the
alignment class (43_buffer.md R170), the lengths (00_scope.md R10), and the register map (10_state.md R21). -/

namespace Sys2Proof.Machine

/-- `lane(w, k)`: byte k of a word, lane 0 being bits 7:0 (R7). -/
def lane (w : Word) (k : Nat) : Byte := w.extractLsb' (8 * k) 8

/-- The word `b3 : b2 : b1 : b0` (R6). -/
def packWord (b3 b2 b1 b0 : Byte) : Word := (b3 ++ b2) ++ (b1 ++ b0)

/-- `GB(din, k)` (R7): byte k of the group input. -/
def groupByte (din : Vector Word 3) (k : Fin 12) : Byte := lane (din[k.val / 4]) (k.val % 4)

/-- Three bytes of a raw group. -/
structure Triple where
  b0 : Byte
  b1 : Byte
  b2 : Byte
deriving DecidableEq, Repr

/-- Four characters of a text group. -/
structure Quad where
  c0 : Byte
  c1 : Byte
  c2 : Byte
  c3 : Byte
deriving DecidableEq, Repr

/-- Four 6-bit values. -/
structure Sextets where
  s0 : Sextet
  s1 : Sextet
  s2 : Sextet
  s3 : Sextet
deriving DecidableEq, Repr

/-- The bytes of a raw group, first byte first. -/
def Triple.bytes (t : Triple) : List Byte := [t.b0, t.b1, t.b2]

/-- The characters of a text group, first character first. -/
def Quad.chars (q : Quad) : List Byte := [q.c0, q.c1, q.c2, q.c3]

/-- Character `c[i]` of a group. -/
def charAt (q : Quad) (i : Fin 4) : Byte :=
  match i with
  | 0 => q.c0
  | 1 => q.c1
  | 2 => q.c2
  | 3 => q.c3

/-- The group whose character i is lane i of a word. -/
def quadOfWord (w : Word) : Quad := ⟨lane w 0, lane w 1, lane w 2, lane w 3⟩

/-- The word whose lane i is character i of a group. -/
def wordOfQuad (q : Quad) : Word := packWord q.c3 q.c2 q.c1 q.c0

/-- `split3` (R9). -/
def split3 (t : Triple) : Sextets where
  s0 := t.b0.extractLsb' 2 6
  s1 := t.b0.extractLsb' 0 2 ++ t.b1.extractLsb' 4 4
  s2 := t.b1.extractLsb' 0 4 ++ t.b2.extractLsb' 6 2
  s3 := t.b2.extractLsb' 0 6

/-- `join4` (R9). -/
def join4 (v : Sextets) : Triple where
  b0 := v.s0 ++ v.s1.extractLsb' 4 2
  b1 := v.s1.extractLsb' 0 4 ++ v.s2.extractLsb' 2 4
  b2 := v.s2.extractLsb' 0 2 ++ v.s3

/-- `EncGroup(n, b0, b1, b2)` (41_encode.md R121), for n = 1, 2 or 3 real bytes. -/
def encGroup (n : Nat) (t : Triple) : Quad where
  c0 := fwd (split3 t).s0
  c1 := fwd (split3 t).s1
  c2 := if 2 ≤ n then fwd (split3 t).s2 else padChar
  c3 := if n = 3 then fwd (split3 t).s3 else padChar

/-- The input group of ENC3 n (R120): lanes at and above n are taken as 0x00, lane 3 is ignored. -/
def countedGroup (n : Nat) (w : Word) : Triple where
  b0 := if 0 < n then lane w 0 else 0
  b1 := if 1 < n then lane w 1 else 0
  b2 := if 2 < n then lane w 2 else 0

/-- `padok` of R143: a `=` where the final group may hold one. -/
def padAllowed (q : Quad) (final : Bool) (i : Fin 4) : Bool :=
  final && charAt q i == padChar && (i == 3 || (i == 2 && q.c3 == padChar))

/-- A position of a group that R143 rejects. -/
def illegalAt (q : Quad) (final : Bool) (i : Fin 4) : Bool :=
  !valid (charAt q i) && !padAllowed q final i

/-- What `Legal4` answers: the first illegal position, or the padding count. -/
inductive GroupCheck where
  | illegal (pos : Fin 4)
  | legal (pad : Nat)
deriving DecidableEq, Repr

/-- The padding count of a legal group (R143). -/
def padCount (q : Quad) (final : Bool) : Nat :=
  if final && q.c3 == padChar then (if q.c2 == padChar then 2 else 1) else 0

/-- `Legal4(c[0..3], final)` (42_decode.md R143). -/
def legal4 (q : Quad) (final : Bool) : GroupCheck :=
  if illegalAt q final 0 then .illegal 0
  else if illegalAt q final 1 then .illegal 1
  else if illegalAt q final 2 then .illegal 2
  else if illegalAt q final 3 then .illegal 3
  else .legal (padCount q final)

/-- `Cause(ch)` (R144). -/
def causeOf (ch : Byte) : FailCause :=
  if ch = padChar then .malformedPadding else .invalidCharacter

/-- `v[i]` of R146: the 6-bit value of character i, 0 at a padding position. -/
def decSextet (p : Platform) (q : Quad) (pad : Nat) (i : Fin 4) : Sextet :=
  if 4 - pad ≤ i.val then 0 else (rev p (charAt q i)).extractLsb' 0 6

/-- `DecGroup(c[0..3], p)` (42_decode.md R146), for a group that R143 found legal with padding count `pad`. -/
def decGroup (p : Platform) (q : Quad) (pad : Nat) : Triple :=
  let t := join4 ⟨decSextet p q pad 0, decSextet p q pad 1, decSextet p q pad 2, decSextet p q pad 3⟩
  { b0 := t.b0
    b1 := if pad = 2 then 0 else t.b1
    b2 := if 1 ≤ pad then 0 else t.b2 }

/-- The alignment classes (43_buffer.md R170). -/
inductive AlignClass where
  | fullyAligned
  | realignable
  | unalignable
deriving DecidableEq, Repr

/-- The code of an alignment class (R170). -/
def classCode : AlignClass → BitVec 2
  | .fullyAligned => 0
  | .realignable => 1
  | .unalignable => 2

/-- `AClass(a, dir)`: the class and `param` (R170). -/
def alignClass (a : Word) (dir : Side) : AlignClass × BitVec 4 :=
  match dir, (a.extractLsb' 0 2).toNat with
  | .encodeSide, 0 => (.fullyAligned, 0)
  | .encodeSide, 1 => (.realignable, 3)
  | .encodeSide, _ => (.unalignable, 0)
  | .decodeSide, 0 => (.fullyAligned, 0)
  | .decodeSide, _ => (.unalignable, (a.extractLsb' 0 2).setWidth 4)

/-- The result of ACLASS: `param[7:4] : class[3:2] : residue[1:0]` (43_buffer.md R171). -/
def alignWord (a : Word) (dir : Side) : Word :=
  ((alignClass a dir).2 ++ (classCode (alignClass a dir).1 ++ a.extractLsb' 0 2)).setWidth 32

/-- `EncLen(L)` (00_scope.md R10). -/
def encLen (n : Nat) : Nat := 4 * ((n + 2) / 3)

/-- `DecMax(L)` (R10), for L a multiple of 4. DESIGN CHOICE log 8: the quotient is rounded down for any other L. -/
def decMax (n : Nat) : Nat := 3 * (n / 4)

/-- The byte offset of a register in the block (10_state.md R21). -/
def regOffset : Reg → BitVec 6
  | .cmd => 0x00
  | .status => 0x04
  | .src => 0x08
  | .dst => 0x0C
  | .len => 0x10
  | .outlen => 0x14
  | .din i => 0x18 + 4 * BitVec.ofNat 6 i.val
  | .dout i => 0x24 + 4 * BitVec.ofNat 6 i.val

/-- The register at a byte offset of the block; `none` for a reserved slot (R21). The offset is a multiple of 4. -/
def regAt (offset : BitVec 6) : Option Reg :=
  match offset.toNat / 4 with
  | 0 => some .cmd
  | 1 => some .status
  | 2 => some .src
  | 3 => some .dst
  | 4 => some .len
  | 5 => some .outlen
  | 6 => some (.din 0)
  | 7 => some (.din 1)
  | 8 => some (.din 2)
  | 9 => some (.dout 0)
  | 10 => some (.dout 1)
  | 11 => some (.dout 2)
  | 12 => some (.dout 3)
  | _ => none

end Sys2Proof.Machine
end

