-- ==== Sys2Proof/Machine/Ops.lean ====
section
/-! DEFINITION. The shared operations: memory and free values (20_memory.md, 00_scope.md R8), issue and the three
completions of a command (60_exceptions.md R200 to R203), the buffers of ENCODE and DECODE and the platform's say
about them (20_memory.md R51, R56 to R58), and reset (70_reset_and_hazards.md R230, R243). Completion is what this
machine has in the place of taking an exception: it raises none and returns from none (60_exceptions.md R207, R209). -/

namespace Sys2Proof.Machine

/-! ### Sparse lists: memory and host temporaries -/

/-- The value at a key; `d` where the list has no entry for it. -/
def sparseGet {α : Type} (d : α) : List (Nat × α) → Nat → α
  | [], _ => d
  | (k, v) :: rest, a => if k = a then v else sparseGet d rest a

/-- A new value at a key, keeping keys rising and leaving out an entry equal to `d`. -/
def sparseSet {α : Type} [DecidableEq α] (d : α) : List (Nat × α) → Nat → α → List (Nat × α)
  | [], a, v => if v = d then [] else [(a, v)]
  | (k, w) :: rest, a, v =>
    if a < k then (if v = d then (k, w) :: rest else (a, v) :: (k, w) :: rest)
    else if a = k then (if v = d then rest else (a, v) :: rest)
    else (k, w) :: sparseSet d rest a v

/-- The canonical form: keys strictly rising, no entry equal to `d`. -/
def sparseWf {α : Type} [DecidableEq α] (d : α) : List (Nat × α) → Bool
  | [] => true
  | (k, v) :: rest => decide (v ≠ d) && rest.all (fun e => decide (k < e.1)) && sparseWf d rest

/-- What an unlisted address of the external memory reads as. DESIGN CHOICE log 1. -/
def unlistedByte : Byte := 0x00

/-- `MemRead(a, 1)` (00_scope.md R8). -/
def readByte (m : Memory) (a : Nat) : Byte := sparseGet unlistedByte m a

/-- `MemWrite(a, 1, v)` (R8). -/
def writeByte (m : Memory) (a : Nat) (v : Byte) : Memory := sparseSet unlistedByte m a v

/-- The memory has its canonical form and lists only addresses of the 2^32-byte space (20_memory.md R50). -/
def Memory.wf (m : Memory) : Bool :=
  sparseWf unlistedByte m && m.all (fun e => decide (e.1 < Config.memorySize))

/-- The `n` bytes from address `a`, lowest first. -/
def readBytes (m : Memory) : Nat → Nat → List Byte
  | _, 0 => []
  | a, n + 1 => readByte m a :: readBytes m (a + 1) n

/-- The bytes written one after another from address `a`. -/
def writeBytes (m : Memory) : Nat → List Byte → Memory
  | _, [] => m
  | a, v :: rest => writeBytes (writeByte m a v) (a + 1) rest

/-- What a temporary of the scripted Host holds before anything is read into it. DESIGN CHOICE log 12. -/
def unwrittenTemp : Word := 0

/-- The value of a host temporary (30_encoding.md R77). -/
def tempValue (s : State) (t : Nat) : Word := sparseGet unwrittenTemp s.host.temps t

/-- A value read into a host temporary (R77). -/
def setTemp (t : Nat) (v : Word) (s : State) : State :=
  { s with host := { s.host with temps := sparseSet unwrittenTemp s.host.temps t v } }

/-! ### Free values -/

/-- `n` draws of `Any8()` from the k-th on (00_scope.md R8). -/
def freeBytes : Nat → Nat → List Byte
  | _, 0 => []
  | k, n + 1 => Config.freeByte k :: freeBytes (k + 1) n

/-- `Any32()`: four `Any8()` draws (R7). -/
def freeWord (k : Nat) : Word :=
  packWord (Config.freeByte (k + 3)) (Config.freeByte (k + 2)) (Config.freeByte (k + 1)) (Config.freeByte k)

/-- A free choice between two behaviours the spec allows: one bit of a draw. -/
def freeChoice (k : Nat) : Bool := (Config.freeByte k).getLsbD 0

/-- `n` draws used up. -/
def spend (n : Nat) (s : State) : State := { s with draws := s.draws + n }

/-- Bytes stored in the external memory from address `a`. -/
def storeBytes (a : Nat) (bs : List Byte) (s : State) : State := { s with mem := writeBytes s.mem a bs }

/-- `n` bytes of memory from address `a` take free values: any value, including the old one (43_buffer.md R182,
R183; 70_reset_and_hazards.md R243). -/
def scramble (a n : Nat) (s : State) : State := spend n (storeBytes a (freeBytes s.draws n) s)

/-! ### Command lifecycle -/

/-- The latched copies while a command is issued and not completed (10_state.md R35). -/
def latchOf : Phase → Option Latched
  | .idle => none
  | .busy l => some l
  | .stuck l => some l

/-- `complete_ok(n)` (60_exceptions.md R201). -/
def completeOk (n : Nat) (s : State) : State :=
  { s with outlen := BitVec.ofNat 32 n, status := statusOk, phase := .idle }

/-- `complete_fail(cause)` (R202). -/
def completeFail (c : FailCause) (s : State) : State :=
  { s with outlen := 0, status := statusFail c, phase := .idle }

/-- `complete_perr(cause)` (R203). -/
def completePerr (c : PerrCause) (s : State) : State :=
  { s with outlen := 0, status := statusPerr c, phase := .idle }

/-- The Engine is stuck: BUSY stays 1 and the command never completes (20_memory.md R58). -/
def hang (l : Latched) (s : State) : State := { s with phase := .stuck l }

/-- The copies latched when the word `w` is issued (10_state.md R23, R35). -/
def latchOperands (w : Word) (s : State) : Latched where
  cw := w
  src := s.src
  dst := s.dst
  len := s.len
  din := s.din
  progress := 0

/-- Issue of the word `w` (10_state.md R23, 60_exceptions.md R200). -/
def issue (w : Word) (s : State) : State :=
  { s with status := statusBusy, phase := .busy (latchOperands w s) }

/-- An operation on the latched operands of the running command. A stuck Engine has no step (20_memory.md R58); with
no command issued there is nothing to execute (log 11). -/
def onCommand (s : State) (run : Latched → Out) : Out :=
  match s.phase with
  | .busy l => run l
  | .stuck _ => .next s
  | .idle => .fault .noCommand

/-- A new value in DOUT[i]. -/
def setDout (i : Fin 4) (v : Word) (s : State) : State := { s with dout := s.dout.set i v }

/-! ### Buffers -/

/-- The source and destination ranges of a buffer command: `[src, src + len)` and `[dst, dst + outMax)`
(20_memory.md R56). Addresses are unbounded naturals (43_buffer.md, head). -/
structure Job where
  src    : Nat
  len    : Nat
  dst    : Nat
  outMax : Nat
deriving DecidableEq, Repr

/-- The ranges of ENCODE (R56, 43_buffer.md R175). -/
def encodeJob (l : Latched) : Job := ⟨l.src.toNat, l.len.toNat, l.dst.toNat, encLen l.len.toNat⟩

/-- The ranges of DECODE (R56, 43_buffer.md R180). -/
def decodeJob (l : Latched) : Job := ⟨l.src.toNat, l.len.toNat, l.dst.toNat, decMax l.len.toNat⟩

/-- The ranges of the running command, if it is an ENCODE or a DECODE. -/
def jobOf (l : Latched) : Option Job :=
  match decode l.cw with
  | .instr .encode => some (encodeJob l)
  | .instr .decode => some (decodeJob l)
  | _ => none

/-- The buffer command a Busy Engine runs (70_reset_and_hazards.md R242). -/
def activeJob (s : State) : Option Job := (latchOf s.phase).bind jobOf

/-- A length DECODE rejects before it accesses memory (43_buffer.md R180). -/
def badDecodeLength (n : Nat) : Bool := decide (n = 0) || decide (n % 4 ≠ 0)

/-- The ranges of a running ENCODE or DECODE whose length passes its check (R175, R180): the only commands that access
memory, if the checks of `dataPhase` pass too. -/
def lengthOkJob (l : Latched) : Option Job :=
  match decode l.cw with
  | .instr .encode => if l.len = 0 then none else some (encodeJob l)
  | .instr .decode => if badDecodeLength l.len.toNat then none else some (decodeJob l)
  | _ => none

/-- An address of the source range. -/
def inSource (j : Job) (a : Nat) : Bool := decide (j.src ≤ a) && decide (a < j.src + j.len)

/-- An address of the destination range. -/
def inDest (j : Job) (a : Nat) : Bool := decide (j.dst ≤ a) && decide (a < j.dst + j.outMax)

/-- The range and overlap checks, in their order (43_buffer.md R175, R180; 60_exceptions.md R206). -/
def rangeCheck (j : Job) : Option PerrCause :=
  if Config.memorySize < j.src + j.len ∨ Config.memorySize < j.dst + j.outMax then some .addressRange
  else if j.src < j.dst + j.outMax ∧ j.dst < j.src + j.len then some .overlap
  else none

/-- An address of a region. -/
def inRegion (r : Region) (a : Nat) : Bool := decide (r.base ≤ a) && decide (a < r.base + r.size)

/-- A test passed by all of the `n` addresses from `a`. -/
def allFrom (test : Nat → Bool) : Nat → Nat → Bool
  | _, 0 => true
  | a, n + 1 => test a && allFrom test (a + 1) n

/-- MEM_ADMITS(a, false) (00_scope.md R5, 20_memory.md R58). -/
def admitsRead (p : Platform) (a : Nat) : Bool := !p.noRead.any (inRegion · a)

/-- MEM_ADMITS(a, true). -/
def admitsWrite (p : Platform) (a : Nat) : Bool := !p.noWrite.any (inRegion · a)

/-- Ordinary memory: reads and writes have no side effect (20_memory.md R57). -/
def ordinary (p : Platform) (a : Nat) : Bool := !p.sideEffects.any (inRegion · a)

/-- REG_BASE (00_scope.md R5). -/
def regBase (p : Platform) : Nat := Config.regBlockSize * p.regBlock

/-- A range of `n` bytes from `a` that meets the register block (20_memory.md R51). -/
def meetsRegBlock (p : Platform) (a n : Nat) : Bool :=
  decide (0 < n) && (decide (a < regBase p + Config.regBlockSize) && decide (regBase p < a + n))

/-- Why the platform makes a buffer command one the model refuses (R51, R57). DEDUCED log 6: asked of a command that
reaches its data phase. -/
def platformRefusal (p : Platform) (j : Job) : Option Refusal :=
  if p.sharedSpace && (meetsRegBlock p j.src j.len || meetsRegBlock p j.dst j.outMax) then
    some .registerBlockOverlap
  else if allFrom (ordinary p) j.src j.len && allFrom (ordinary p) j.dst j.outMax then none
  else some .sideEffectLocation

/-- The part of ENCODE and DECODE between the length check and the data: the programmer errors (60_exceptions.md
R206), then the platform's refusals, then the data phase. -/
def dataPhase (s : State) (j : Job) (run : Out) : Out :=
  match rangeCheck j with
  | some c => .next (completePerr c s)
  | none =>
    match platformRefusal s.platform j with
    | some r => .refused r
    | none => run

/-- The Engine performs one more access of a running buffer operation: the next destination byte takes a value on
which nothing may be concluded, and the progress position moves on (10_state.md R35, 20_memory.md R61 (d)). Nothing
happens where the operation has no such access to make. DESIGN CHOICE log 9. -/
def engineAccess (s : State) : State :=
  match s.phase with
  | .busy l =>
    match lengthOkJob l with
    | some j =>
      if rangeCheck j = none ∧ platformRefusal s.platform j = none ∧ l.progress < j.outMax ∧
          admitsWrite s.platform (j.dst + l.progress) = true then
        { scramble (j.dst + l.progress) 1 s with phase := .busy { l with progress := l.progress + 1 } }
      else s
    | none => s
  | _ => s

/-! ### Reset -/

/-- The destination bytes of an abandoned buffer command take free values (70_reset_and_hazards.md R243). DESIGN
CHOICE log 8: those below 2^32. -/
def abandonBuffers (s : State) : State :=
  match activeJob s with
  | some j => scramble j.dst (min j.outMax (Config.memorySize - j.dst)) s
  | none => s

/-- Reset (R230, 10_state.md R38): the command in progress is abandoned and every register becomes 0. The memory is
touched as R243 says and no more. -/
def resetEngine (s : State) : State :=
  { abandonBuffers s with
    status := 0, src := 0, dst := 0, len := 0, outlen := 0
    din := #v[0, 0, 0], dout := #v[0, 0, 0, 0], phase := .idle }

end Sys2Proof.Machine
end

