-- ==== Sys2Proof/Machine/Bus.lean ====
section
/-! DEFINITION. What the Hosts and the other agents do: accesses to the register block (10_state.md R22 to R28,
70_reset_and_hazards.md R240, R241, R244), accesses to the external memory (R242), and the lines of a host script
(30_encoding.md R77, R78). -/

namespace Sys2Proof.Machine

/-- The register of an admitted access, or why the access is refused (10_state.md R22 (a), (b)). -/
def accessed (width : Nat) (offset : BitVec 6) : Except Refusal Reg :=
  if width ≠ 32 then .error .accessWidth
  else if offset.toNat % 4 ≠ 0 then .error .misalignedAccess
  else match regAt offset with
    | some r => .ok r
    | none => .error .reservedOffset

/-- A register written with `v` (10_state.md R22, R23, R25, R26; 70_reset_and_hazards.md R240, R244). -/
def writeReg (r : Reg) (v : Word) (s : State) : Out :=
  match r with
  | .cmd =>
    match latchOf s.phase with
    | none => .next (issue v s)
    | some _ => .refused .commandWhileBusy
  | .src => .next { s with src := v }
  | .dst => .next { s with dst := v }
  | .len => .next { s with len := v }
  | .din i => .next { s with din := s.din.set i v }
  | .status => .next s
  | .outlen => .next s
  | .dout _ => .next s

/-- A result register read into temporary `t`: any value while Busy (70_reset_and_hazards.md R241). -/
def readResult (v : Word) (t : Nat) (s : State) : State :=
  match latchOf s.phase with
  | none => setTemp t v s
  | some _ => spend 4 (setTemp t (freeWord s.draws) s)

/-- A register read into temporary `t`; no read has a side effect on the block (10_state.md R22 (d), (e)). -/
def readReg (r : Reg) (t : Nat) (s : State) : State :=
  match r with
  | .cmd => setTemp t 0 s
  | .status => setTemp t s.status s
  | .src => setTemp t s.src s
  | .dst => setTemp t s.dst s
  | .len => setTemp t s.len s
  | .din i => setTemp t s.din[i] s
  | .outlen => readResult s.outlen t s
  | .dout i => readResult s.dout[i] t s

/-- A Host's bus write (10_state.md R22). -/
def busWrite (width : Nat) (offset : BitVec 6) (v : Word) (s : State) : Out :=
  match accessed width offset with
  | .ok r => writeReg r v s
  | .error e => .refused e

/-- A Host's bus read (10_state.md R22). -/
def busRead (width : Nat) (offset : BitVec 6) (t : Nat) (s : State) : Out :=
  match accessed width offset with
  | .ok r => .next (readReg r t s)
  | .error e => .refused e

/-- A write to the external memory by an agent other than the Engine (70_reset_and_hazards.md R242 (a)). DESIGN CHOICE
log 13: a location with side effects is refused, under the name `bufferInUse` where it is in a range of a Busy command. -/
def foreignWrite (addr : Word) (v : Byte) (s : State) : Out :=
  if (activeJob s).any (fun j => inSource j addr.toNat || inDest j addr.toNat) then .refused .bufferInUse
  else if ordinary s.platform addr.toNat then .next (storeBytes addr.toNat [v] s)
  else .refused .sideEffectLocation

/-- A read of the external memory by an agent other than the Engine, into temporary `t` (R242 (b), (c)). DESIGN CHOICE log 13:
a byte of the destination range of a Busy command gives a free value also where it is a byte of the source range too, and
also where it is a location with side effects, with no effect on that location. -/
def foreignRead (addr : Word) (t : Nat) (s : State) : Out :=
  if (activeJob s).any (fun j => inDest j addr.toNat) then
    .next (spend 1 (setTemp t ((Config.freeByte s.draws).setWidth 32) s))
  else if ordinary s.platform addr.toNat then
    .next (setTemp t ((readByte s.mem addr.toNat).setWidth 32) s)
  else .refused .sideEffectLocation

/-! ### Host scripts -/

/-- The first line a label stands on, counting from `n` (30_encoding.md R77; log 12). -/
def labelLine (name : Nat) : List Line → Nat → Option Nat
  | [], _ => none
  | l :: rest, n => if l = .label name then some n else labelLine name rest (n + 1)

/-- The script goes on at line `n`. -/
def atLine (n : Nat) (s : State) : State := { s with host := { s.host with line := n } }

/-- The script goes on at the next line. -/
def nextLine (s : State) : State := atLine (s.host.line + 1) s

/-- The script goes on at a label. -/
def jumpTo (target : Nat) (s : State) : Out :=
  match labelLine target s.host.script 0 with
  | some n => .next (atLine n s)
  | none => .refused .undefinedLabel

/-- A branch: to the label if the condition holds, else to the next line. -/
def branch (taken : Bool) (target : Nat) (s : State) : Out :=
  if taken then jumpTo target s else .next (nextLine s)

/-- One line of a host script (R77). A branch line performs no bus transaction. DESIGN CHOICE log 12: a `btst` of a bit that
a 32-bit temporary does not have, i of 32 or more, reads it as 0 and does not branch. -/
def runLine (line : Line) (s : State) : Out :=
  match line with
  | .wr r v => busWrite 32 (regOffset r) v (nextLine s)
  | .rd r t => busRead 32 (regOffset r) t (nextLine s)
  | .btst t i target => branch ((tempValue s t).getLsbD i) target s
  | .beq t v target => branch (decide (tempValue s t = v)) target s
  | .bne t v target => branch (decide (tempValue s t ≠ v)) target s
  | .jmp target => jumpTo target s
  | .halt => .next s
  | .label _ => .next (nextLine s)

/-- The scripted Host's turn; nothing happens where the script has no line left (log 12). -/
def scriptTurn (s : State) : Out :=
  match s.host.script[s.host.line]? with
  | some line => runLine line s
  | none => .next s

/-- `cmd M` (R77). -/
def cmdLine (i : Instr) : Line := .wr .cmd (encode i)

/-- `poll` (R78), with its fresh label and the temporary that keeps STATUS. -/
def poll (fresh t : Nat) : List Line := [.label fresh, .rd .status t, .btst t 0 fresh]

/-- A buffer command's pseudo-instruction: the operands, the command, the poll. -/
def bufferLines (i : Instr) (src dst len : Word) (fresh t : Nat) : List Line :=
  [.wr .src src, .wr .dst dst, .wr .len len, cmdLine i] ++ poll fresh t

/-- `b64enc src, dst, len` (R78). -/
def b64enc (src dst len : Word) (fresh t : Nat) : List Line := bufferLines .encode src dst len fresh t

/-- `b64dec src, dst, len` (R78). -/
def b64dec (src dst len : Word) (fresh t : Nat) : List Line := bufferLines .decode src dst len fresh t

/-- `grp M, w0, w1, w2` (R78). -/
def grp (i : Instr) (w0 w1 w2 : Word) (fresh t : Nat) : List Line :=
  [.wr (.din 0) w0, .wr (.din 1) w1, .wr (.din 2) w2, cmdLine i] ++ poll fresh t

end Sys2Proof.Machine
end

