-- ==== Sys2Proof/Machine/Buffer.lean ====
section
/-! DEFINITION. The alignment classifier and the whole-buffer operations: ACLASS, ENCODE, DECODE (43_buffer.md R171,
R175, R180 to R183). -/

namespace Sys2Proof.Machine

/-- ACLASS.E and ACLASS.D (R171): the alignment class of SRC. -/
def execAclass (dir : Side) (s : State) : Out :=
  onCommand s fun l => .next (completeOk 1 (setDout 0 (alignWord l.src dir) s))

/-- The text of a byte sequence, group by group (R175): full groups, then one group of the 1 or 2 bytes left. -/
def encodeText : List Byte → List Byte
  | b0 :: b1 :: b2 :: rest => (encGroup 3 ⟨b0, b1, b2⟩).chars ++ encodeText rest
  | [b0, b1] => (encGroup 2 ⟨b0, b1, 0⟩).chars
  | [b0] => (encGroup 1 ⟨b0, 0, 0⟩).chars
  | [] => []

/-- ENCODE (R175). Every source byte is read and every destination byte written; if the platform does not back one of
them the Engine is stuck (20_memory.md R58). -/
def execEncode (s : State) : Out :=
  onCommand s fun l =>
    let j := encodeJob l
    if l.len = 0 then .next (completePerr .zeroLength s)
    else dataPhase s j
      (if allFrom (admitsRead s.platform) j.src j.len && allFrom (admitsWrite s.platform) j.dst j.outMax then
        .next (completeOk j.outMax (storeBytes j.dst (encodeText (readBytes s.mem j.src j.len)) s))
      else .next (hang l s))

/-- What the data check of DECODE answers: the first illegal position over the whole text and its cause, or the
decoded bytes and the padding count of the final group. -/
inductive Verdict where
  | rejected (pos : Nat) (cause : FailCause)
  | accepted (bytes : List Byte) (pad : Nat)
deriving DecidableEq, Repr

/-- The real bytes of a legal group: the first 3 - pad (42_decode.md R146). -/
def realBytes (p : Platform) (q : Quad) (pad : Nat) : List Byte := (decGroup p q pad).bytes.take (3 - pad)

/-- A verdict on the rest of a text, seen from the text with one more legal group, of the bytes `bs`, before it. -/
def Verdict.after (bs : List Byte) : Verdict → Verdict
  | .rejected pos c => .rejected (pos + 4) c
  | .accepted bytes pad => .accepted (bs ++ bytes) pad

/-- The data check and the bytes of DECODE (R180), lowest group first; the last group alone is final. The text has a
length DECODE accepts: a positive multiple of 4. -/
def decodeText (p : Platform) : List Byte → Verdict
  | c0 :: c1 :: c2 :: c3 :: rest =>
    match legal4 ⟨c0, c1, c2, c3⟩ rest.isEmpty with
    | .illegal pos => .rejected pos.val (causeOf (charAt ⟨c0, c1, c2, c3⟩ pos))
    | .legal pad =>
      if rest.isEmpty then .accepted (realBytes p ⟨c0, c1, c2, c3⟩ pad) pad
      else (decodeText p rest).after (realBytes p ⟨c0, c1, c2, c3⟩ pad)
  | _ => .accepted [] 0

/-- Whether a DECODE gets past its accesses: the platform backs those it surely makes, and backs those it may make or
the Engine does not make them (20_memory.md R58, 43_buffer.md R182, R183, R185). DESIGN CHOICE log 7: the Engine's choice is
bit 0 of a draw, which the caller uses up whichever way it goes. -/
def accessesDone (sure may : Bool) (s : State) : Bool := sure && (may || !freeChoice s.draws)

/-- A rejected DECODE: the whole destination takes free values (R183). The characters up to the end of the failing group
are surely read; the others, and the destination, may be accessed. -/
def rejectDecode (l : Latched) (j : Job) (pos : Nat) (c : FailCause) (s : State) : State :=
  let upto := 4 * (pos / 4 + 1)
  if accessesDone (allFrom (admitsRead s.platform) j.src upto)
      (allFrom (admitsRead s.platform) (j.src + upto) (j.len - upto) &&
        allFrom (admitsWrite s.platform) j.dst j.outMax) s then
    completeFail c (scramble j.dst j.outMax (spend 1 s))
  else hang l (spend 1 s)

/-- An accepted DECODE: the decoded bytes are stored, and the last `pad` bytes of the destination take free values
(R180, R182); these the Engine may or may not write. -/
def acceptDecode (l : Latched) (j : Job) (bytes : List Byte) (pad : Nat) (s : State) : State :=
  if accessesDone (allFrom (admitsRead s.platform) j.src j.len &&
        allFrom (admitsWrite s.platform) j.dst (j.outMax - pad))
      (allFrom (admitsWrite s.platform) (j.dst + (j.outMax - pad)) pad) s then
    completeOk (j.outMax - pad) (scramble (j.dst + (j.outMax - pad)) pad (spend 1 (storeBytes j.dst bytes s)))
  else hang l (spend 1 s)

/-- The data phase of DECODE (R180). -/
def decodeData (l : Latched) (j : Job) (s : State) : State :=
  match decodeText s.platform (readBytes s.mem j.src j.len) with
  | .rejected pos c => rejectDecode l j pos c s
  | .accepted bytes pad => acceptDecode l j bytes pad s

/-- DECODE (R180). -/
def execDecode (s : State) : Out :=
  onCommand s fun l =>
    if badDecodeLength l.len.toNat then .next (completeFail .malformedPadding s)
    else dataPhase s (decodeJob l) (.next (decodeData l (decodeJob l) s))

end Sys2Proof.Machine
end

