-- ==== Sys2Proof/Machine/DecodeGroup.lean ====
section
/-! DEFINITION. The decode group operations, DEC4 and DEC8 (42_decode.md R145, R150, R152). -/

namespace Sys2Proof.Machine

/-- A rejected DEC4: DOUT[0] takes a free value (R145, R152). -/
def rejectDec4 (c : FailCause) (s : State) : State :=
  completeFail c (spend 4 (setDout 0 (freeWord s.draws) s))

/-- DEC4 and DEC4.F (R145). -/
def execDec4 (final : Bool) (s : State) : Out :=
  onCommand s fun l =>
    match legal4 (quadOfWord l.din[0]) final with
    | .illegal pos => .next (rejectDec4 (causeOf (charAt (quadOfWord l.din[0]) pos)) s)
    | .legal pad =>
      let t := decGroup s.platform (quadOfWord l.din[0]) pad
      .next (completeOk (3 - pad) (setDout 0 (packWord 0 t.b2 t.b1 t.b0) s))

/-- A rejected DEC8: DOUT[0] and DOUT[1] take free values (R150, R152). -/
def rejectDec8 (c : FailCause) (s : State) : State :=
  completeFail c (spend 8 (setDout 1 (freeWord (s.draws + 4)) (setDout 0 (freeWord s.draws) s)))

/-- DEC8 and DEC8.F (R150): FINAL applies to the second group only. -/
def execDec8 (final : Bool) (s : State) : Out :=
  onCommand s fun l =>
    match legal4 (quadOfWord l.din[0]) false with
    | .illegal pos => .next (rejectDec8 (causeOf (charAt (quadOfWord l.din[0]) pos)) s)
    | .legal _ =>
      match legal4 (quadOfWord l.din[1]) final with
      | .illegal pos => .next (rejectDec8 (causeOf (charAt (quadOfWord l.din[1]) pos)) s)
      | .legal pad =>
        let t := decGroup s.platform (quadOfWord l.din[0]) 0
        let u := decGroup s.platform (quadOfWord l.din[1]) pad
        .next (completeOk (6 - pad)
          (setDout 1 (packWord 0 0 u.b2 u.b1) (setDout 0 (packWord u.b0 t.b2 t.b1 t.b0) s)))

end Sys2Proof.Machine
end

