-- ==== Sys2Proof/Machine/EncodeGroup.lean ====
section
/-! DEFINITION. The encode group operations, ENC3 and ENC12 (41_encode.md R120, R125). -/

namespace Sys2Proof.Machine

/-- ENC3 n (R120). A count of 0 is an illegal word (30_encoding.md R74); the decoder gives no such command, and the
meaning completes it as R74 says (log 10). -/
def execEnc3 (n : BitVec 2) (s : State) : Out :=
  onCommand s fun l =>
    if n = 0 then .next (completePerr .illegalCommand s)
    else .next (completeOk 4
      (setDout 0 (wordOfQuad (encGroup n.toNat (countedGroup n.toNat l.din[0]))) s))

/-- Group g of the 12-byte block: bytes 3g, 3g + 1 and 3g + 2 (R125). -/
def blockGroup (din : Vector Word 3) (g : Fin 4) : Triple where
  b0 := groupByte din ⟨3 * g.val, by omega⟩
  b1 := groupByte din ⟨3 * g.val + 1, by omega⟩
  b2 := groupByte din ⟨3 * g.val + 2, by omega⟩

/-- DOUT[g] of ENC12 (R125). -/
def blockWord (din : Vector Word 3) (g : Fin 4) : Word := wordOfQuad (encGroup 3 (blockGroup din g))

/-- ENC12 (R125): four groups, no order between them. -/
def execEnc12 (s : State) : Out :=
  onCommand s fun l =>
    .next (completeOk 16
      { s with dout := #v[blockWord l.din 0, blockWord l.din 1, blockWord l.din 2, blockWord l.din 3] })

end Sys2Proof.Machine
end

