-- ==== Sys2Proof/Machine/Lookup.lean ====
section
/-! DEFINITION. The lookup operations, FLOOKUP and RLOOKUP (40_lookup.md R105, R106). -/

namespace Sys2Proof.Machine

/-- FLOOKUP (R105): the character of a 6-bit value. -/
def execFlookup (s : State) : Out :=
  onCommand s fun l =>
    .next (completeOk 1 (setDout 0 ((fwd (l.din[0].extractLsb' 0 6)).setWidth 32) s))

/-- RLOOKUP (R106): the table entry of a byte; the sentinel is data, not a failure. -/
def execRlookup (s : State) : Out :=
  onCommand s fun l =>
    .next (completeOk 1 (setDout 0 ((rev s.platform (l.din[0].extractLsb' 0 8)).setWidth 32) s))

end Sys2Proof.Machine
end

