-- ==== Sys2Proof/Machine/Dispatch.lean ====
section
/-! DEFINITION. One arm per command: the operation the Engine performs in its completion step (60_exceptions.md R200). -/

namespace Sys2Proof.Machine

def exec (i : Instr) (s : State) : Host.Outcome State Fault Refusal :=
  match i with
  | .flookup => Sys2Proof.Machine.execFlookup s
  | .rlookup => Sys2Proof.Machine.execRlookup s
  | .enc3 n => Sys2Proof.Machine.execEnc3 n s
  | .enc12 => Sys2Proof.Machine.execEnc12 s
  | .dec4 final => Sys2Proof.Machine.execDec4 final s
  | .dec8 final => Sys2Proof.Machine.execDec8 final s
  | .aclass dir => Sys2Proof.Machine.execAclass dir s
  | .encode => Sys2Proof.Machine.execEncode s
  | .decode => Sys2Proof.Machine.execDecode s

end Sys2Proof.Machine
end

