-- ==== Sys2Proof/Machine/Engine.lean ====
section
/-! DEFINITION. The turns of the agents (log 4): the Engine's completion step (60_exceptions.md R200), and which agent
moves when no turn is listed. -/

namespace Sys2Proof.Machine

/-- The Engine's completion step: the operation rule of the latched word, or ILLEGAL_COMMAND for an illegal word
(60_exceptions.md R200; 30_encoding.md R74). An Idle Engine has nothing to do, and a stuck one has no step
(20_memory.md R58). -/
def engineTurn (s : State) : Out :=
  match s.phase with
  | .busy l =>
    match decode l.cw with
    | .instr i => exec i s
    | .illegal _ => .next (completePerr .illegalCommand s)
  | .idle => .next s
  | .stuck _ => .next s

/-- One turn of an agent. -/
def takeTurn (t : Turn) (s : State) : Out :=
  match t with
  | .engine => engineTurn s
  | .engineAccess => .next (engineAccess s)
  | .script => scriptTurn s
  | .write width offset v => busWrite width offset v s
  | .read width offset t => busRead width offset t s
  | .memWrite addr v => foreignWrite addr v s
  | .memRead addr t => foreignRead addr t s
  | .reset => .next (resetEngine s)

/-- The turn taken when no turn is listed: the Engine completes the command it runs, else the scripted Host goes on
(log 4). -/
def ownTurn (s : State) : Out :=
  match s.phase with
  | .busy _ => engineTurn s
  | .idle => scriptTurn s
  | .stuck _ => scriptTurn s

/-- The state in which the word `w` has just been issued and the Engine's completion step comes next (log 5). -/
def withIssued (w : Word) (s : State) : State :=
  { issue w s with turns := .engine :: s.turns }

end Sys2Proof.Machine
end

