-- ==== Sys2Proof/Machine/Step.lean ====
section
/-! DEFINITION. One step of the machine: the next listed turn, or the turn that falls due when none is listed (log 4). -/

namespace Sys2Proof.Machine

/-- One step. -/
def step (s : State) : Host.Outcome State Fault Refusal :=
  match s.turns with
  | t :: rest => takeTurn t { s with turns := rest }
  | [] => ownTurn s

/-- The instruction of `nbits` bits that are `w` stands where the next step takes it: the Engine is Busy with that
command word, its operands latched as the CMD write latches them (10_state.md R23), and its completion step is the next
turn (log 5, log 18). -/
def State.withFetchWord (s : State) (nbits w : Nat) : State :=
  withIssued (BitVec.ofNat 32 (w % 2 ^ nbits)) s

end Sys2Proof.Machine
end

