-- ==== Sys2Proof/Safety.lean ====
section
/-! DEFINITION. The terms claims are written in: safe runs, the invariant of the machine, frames, the conditions under
which a buffer command runs, and Base64 by ordinary arithmetic, written from 00_scope.md R9, R10 and 40_lookup.md R100
apart from the tables and the bit slices of the machine. -/

namespace Sys2Proof.Machine

/-! ### Safe runs and the invariant -/

/-- A run of `k` steps without a fault and without a refusal: the machine stays inside what the spec gives a meaning. -/
def safeFor (k : Nat) (s : State) : Prop := ∃ t, Sys2Proof.core.run k s = .next t

/-- The values STATUS has while the Engine is Idle: after reset, after a success, and after each cause
(60_exceptions.md R205). -/
def idleStatuses : List Word := [0x00, 0x02, 0x16, 0x26, 0x8A, 0x9A, 0xAA, 0xBA]

/-- STATUS is a legal combination (10_state.md R24) and BUSY shows the phase (R35). -/
def statusAgrees (s : State) : Bool :=
  match latchOf s.phase with
  | none => idleStatuses.contains s.status
  | some _ => decide (s.status = 1)

/-- OUTLEN is 0 unless the last command succeeded or a command is running (R27). -/
def outlenAgrees (s : State) : Bool :=
  (latchOf s.phase).isSome || decide (s.status = statusOk) || decide (s.outlen = 0)

/-- The progress position stays inside the destination range, and only a buffer command is stuck (R35, 20_memory.md
R58). -/
def progressAgrees (s : State) : Bool :=
  match s.phase with
  | .idle => true
  | .busy l => decide (l.progress ≤ ((jobOf l).map Job.outMax).getD 0)
  | .stuck l => (jobOf l).isSome && decide (l.progress ≤ ((jobOf l).map Job.outMax).getD 0)

/-- The invariant: STATUS and OUTLEN agree with the phase, the progress position is in range, and memory and the host
temporaries have their canonical form, memory within the 2^32-byte space. -/
def State.inv (s : State) : Bool :=
  statusAgrees s && outlenAgrees s && progressAgrees s && Memory.wf s.mem && sparseWf unwrittenTemp s.host.temps

/-! ### Frames -/

/-- The registers only the Host writes (10_state.md R33). -/
def sameOperands (s t : State) : Prop := t.src = s.src ∧ t.dst = s.dst ∧ t.len = s.len ∧ t.din = s.din

/-- What is not the Engine's: the scripted Host, the platform, and the turns to come. -/
def sameSurroundings (s t : State) : Prop := t.host = s.host ∧ t.platform = s.platform ∧ t.turns = s.turns

/-- Every byte outside `n` addresses from `a` reads as before. -/
def sameOutside (a n : Nat) (s t : State) : Prop :=
  ∀ x, x < a ∨ a + n ≤ x → readByte t.mem x = readByte s.mem x

/-- The value of a register as a Host reads it from an Idle engine (10_state.md R21, R22 (d)). -/
def regValue (s : State) : Reg → Word
  | .cmd => 0
  | .status => s.status
  | .src => s.src
  | .dst => s.dst
  | .len => s.len
  | .outlen => s.outlen
  | .din i => s.din[i]
  | .dout i => s.dout[i]

/-- Other values in the registers only the Host writes. -/
def withOperands (src dst len : Word) (din : Vector Word 3) (s : State) : State :=
  { s with src := src, dst := dst, len := len, din := din }

/-- An outcome with its next state changed. -/
def mapNext (f : State → State) : Out → Out
  | .next t => .next (f t)
  | .fault e => .fault e
  | .refused r => .refused r

/-! ### When a buffer command runs -/

/-- The two ranges lie in the 2^32-byte space and do not meet (60_exceptions.md R205). -/
def rangesClear (j : Job) : Prop :=
  j.src + j.len ≤ 4294967296 ∧ j.dst + j.outMax ≤ 4294967296 ∧
    (j.dst + j.outMax ≤ j.src ∨ j.src + j.len ≤ j.dst)

/-- The two ranges are ordinary memory the platform backs, off the register block (20_memory.md R51, R57, R58). -/
def rangesBacked (p : Platform) (j : Job) : Prop :=
  platformRefusal p j = none ∧
  (∀ a, j.src ≤ a → a < j.src + j.len → admitsRead p a = true) ∧
  (∀ a, j.dst ≤ a → a < j.dst + j.outMax → admitsWrite p a = true)

/-! ### Base64 by arithmetic -/

/-- The character of a 6-bit value, by the ranges of 40_lookup.md R100. -/
def alphabetChar (v : Nat) : Nat :=
  if v < 26 then 0x41 + v
  else if v < 52 then 0x61 + (v - 26)
  else if v < 62 then 0x30 + (v - 52)
  else if v = 62 then 0x2B
  else 0x2F

/-- One of the 64 characters of the alphabet. -/
def isAlphabet (c : Nat) : Bool :=
  (decide (0x41 ≤ c) && decide (c ≤ 0x5A)) || (decide (0x61 ≤ c) && decide (c ≤ 0x7A)) ||
    (decide (0x30 ≤ c) && decide (c ≤ 0x39)) || decide (c = 0x2B) || decide (c = 0x2F)

/-- The 6-bit value of a character of the alphabet. -/
def alphabetValue (c : Nat) : Nat :=
  if 0x41 ≤ c ∧ c ≤ 0x5A then c - 0x41
  else if 0x61 ≤ c ∧ c ≤ 0x7A then c - 0x61 + 26
  else if 0x30 ≤ c ∧ c ≤ 0x39 then c - 0x30 + 52
  else if c = 0x2B then 62
  else 63

/-- The 6-bit value a character of a legal text stands for, a `=` standing for 0 (42_decode.md R146). -/
def charValue (c : Nat) : Nat := if c = 0x3D then 0 else alphabetValue c

/-- Byte `k` of a number, counting from the least significant. -/
def byteOf (x k : Nat) : Nat := x / 256 ^ k % 256

/-- Character `j` of the text of a group of `n` real bytes, the bytes read as one 24-bit number, first byte first; `=`
stands in the positions the real bytes do not reach (00_scope.md R9, 41_encode.md R121). -/
def groupChar (n b0 b1 b2 j : Nat) : Nat :=
  if j ≤ n then alphabetChar ((b0 * 65536 + b1 * 256 + b2) / 64 ^ (3 - j) % 64) else 0x3D

/-- The register word of the four characters of a group, character 0 in the lowest lane. -/
def groupWord (n b0 b1 b2 : Nat) : Word :=
  BitVec.ofNat 32 (groupChar n b0 b1 b2 0 + 256 * groupChar n b0 b1 b2 1 +
    65536 * groupChar n b0 b1 b2 2 + 16777216 * groupChar n b0 b1 b2 3)

/-- Byte `j` of the group of the 6-bit values `v0` to `v3`, read as one 24-bit number (00_scope.md R9). -/
def groupOut (v0 v1 v2 v3 j : Nat) : Nat := byteOf (v0 * 262144 + v1 * 4096 + v2 * 64 + v3) (2 - j)

/-- Position `i` of a group of characters is illegal (42_decode.md R140, R142): not of the alphabet, and no `=` where the
final group may hold one. -/
def badPosition (c : Fin 4 → Nat) (final : Bool) (i : Fin 4) : Bool :=
  !isAlphabet (c i) && !(final && decide (c i = 0x3D) && (i == 3 || (i == 2 && decide (c 3 = 0x3D))))

/-- Position `k` of a whole text of `n` characters is illegal: not of the alphabet, and no `=` in the last position or in
the last two. -/
def badTextPosition (c : Nat → Nat) (n k : Nat) : Bool :=
  !isAlphabet (c k) &&
    !(decide (c k = 0x3D) && (decide (k + 1 = n) || (decide (k + 2 = n) && decide (c (n - 1) = 0x3D))))

/-- The number of trailing `=` of a legal text of `n` characters: 0, 1 or 2. -/
def textPad (c : Nat → Nat) (n : Nat) : Nat :=
  if c (n - 1) = 0x3D then (if c (n - 2) = 0x3D then 2 else 1) else 0

/-- The byte in memory at an offset from an address, as a number. -/
def byteAt (s : State) (a k : Nat) : Nat := (readByte s.mem (a + k)).toNat

/-- The STATUS word of a rejected decode input whose first illegal character is `c` (42_decode.md R144,
60_exceptions.md R205). -/
def rejectStatus (c : Nat) : Word := if c = 0x3D then 0x26 else 0x16

end Sys2Proof.Machine
end

