-- ==== Sys2Proof/Certificates/Slice0/Obligations.lean ====
section
/-! DEFINITION. The statements about the B64LPE, in the order of OBLIGATIONS.json. A statement about the result of a
command concludes with the whole next state, so that its frame is part of it. -/

open Sys2Proof Sys2Proof.Machine

/-! ### Encoding -/

/-- The fourteen words of 30_encoding.md R72, R76, written out, decode to the commands they stand for. -/
def Obligations.FourteenWordsDecodeToTheirCommands : Prop :=
  decode 0x00000001 = .instr .flookup ∧ decode 0x00000002 = .instr .rlookup ∧
  decode 0x00000013 = .instr (.enc3 1) ∧ decode 0x00000023 = .instr (.enc3 2) ∧ decode 0x00000033 = .instr (.enc3 3) ∧
  decode 0x00000004 = .instr .enc12 ∧
  decode 0x00000005 = .instr (.dec4 false) ∧ decode 0x00000045 = .instr (.dec4 true) ∧
  decode 0x00000006 = .instr (.dec8 false) ∧ decode 0x00000046 = .instr (.dec8 true) ∧
  decode 0x00000007 = .instr (.aclass .encodeSide) ∧ decode 0x00000047 = .instr (.aclass .decodeSide) ∧
  decode 0x00000008 = .instr .encode ∧ decode 0x00000009 = .instr .decode

/-- Decoding the encoding of a well-formed command gives it back (30_encoding.md R70, R72, R75). -/
def Obligations.DecodeOfEncodeGivesTheCommandBack : Prop :=
  ∀ i : Instr, wellFormed i = true → decode (encode i) = .instr i

/-- A word that decodes to a command is the encoding of that command, and the command is well-formed: no two words
decode to one command (30_encoding.md R70, R72, R75). -/
def Obligations.DecodedWordIsTheEncodingOfItsCommand : Prop :=
  ∀ (w : Word) (i : Instr), decode w = .instr i → wellFormed i = true ∧ encode i = w

/-- The opcode map (R72): these words, and no other, are legal, each with its command. -/
def Obligations.LegalWordsAreExactlyTheOpcodeMap : Prop :=
  ∀ (w : Word) (i : Instr), decode w = .instr i ↔
    (w, i) ∈ [((0x00000001 : Word), Instr.flookup), (0x00000002, .rlookup), (0x00000013, .enc3 1),
      (0x00000023, .enc3 2), (0x00000033, .enc3 3), (0x00000004, .enc12), (0x00000005, .dec4 false),
      (0x00000045, .dec4 true), (0x00000006, .dec8 false), (0x00000046, .dec8 true),
      (0x00000007, .aclass .encodeSide), (0x00000047, .aclass .decodeSide), (0x00000008, .encode),
      (0x00000009, .decode)]

/-- Illegal words (R74): which they are, that they are issued like any command, and that the Engine's completion step
changes only STATUS (to 0x0000008A) and OUTLEN (to 0), the Engine becoming Idle. -/
def Obligations.IllegalWordsCompleteAsIllegalCommand : Prop :=
  (∀ w : Word, (∃ why, decode w = .illegal why) ↔
    (w.toNat % 16 = 0 ∨ 10 ≤ w.toNat % 16 ∨ w.toNat / 128 ≠ 0 ∨
      (w.toNat / 16 % 4 ≠ 0 ∧ w.toNat % 16 ≠ 3) ∨ (w.toNat / 16 % 4 = 0 ∧ w.toNat % 16 = 3) ∨
      (w.toNat / 64 % 2 ≠ 0 ∧ w.toNat % 16 ≠ 5 ∧ w.toNat % 16 ≠ 6 ∧ w.toNat % 16 ≠ 7))) ∧
  (∀ (s : State) (w : Word) (why : Illegal) (rest : List Turn), s.phase = .idle → decode w = .illegal why →
    s.turns = .write 32 0x00 w :: rest →
    step s = .next { s with
      turns := rest, status := 1, phase := .busy ⟨w, s.src, s.dst, s.len, s.din, 0⟩ }) ∧
  (∀ (s : State) (l : Latched) (why : Illegal) (rest : List Turn), s.phase = .busy l → decode l.cw = .illegal why →
    s.turns = .engine :: rest →
    step s = .next { s with turns := rest, status := 0x0000008A, outlen := 0, phase := .idle })

/-- The assembler's fourteen texts with their words (30_encoding.md R76); every command is among them; the disassembler
prints a legal word as its command's text and an illegal word as `.word 0x` and the word's digits, in capitals by the model's
choice (log 17). -/
def Obligations.AssemblerTextGivesTheCommandWord : Prop :=
  (assemble "FLOOKUP" = some 0x00000001 ∧ assemble "RLOOKUP" = some 0x00000002 ∧
    assemble "ENC3 1" = some 0x00000013 ∧ assemble "ENC3 2" = some 0x00000023 ∧ assemble "ENC3 3" = some 0x00000033 ∧
    assemble "ENC12" = some 0x00000004 ∧ assemble "DEC4" = some 0x00000005 ∧ assemble "DEC4.F" = some 0x00000045 ∧
    assemble "DEC8" = some 0x00000006 ∧ assemble "DEC8.F" = some 0x00000046 ∧
    assemble "ACLASS.E" = some 0x00000007 ∧ assemble "ACLASS.D" = some 0x00000047 ∧
    assemble "ENCODE" = some 0x00000008 ∧ assemble "DECODE" = some 0x00000009) ∧
  (∀ i : Instr, wellFormed i = true → assemble (assemblyText i) = some (encode i)) ∧
  (∀ (w : Word) (i : Instr), decode w = .instr i → disassemble w = assemblyText i) ∧
  (∀ (w : Word) (why : Illegal), decode w = .illegal why → disassemble w = ".word 0x" ++ hexWord w) ∧
  hexWord 0x01234567 = "01234567" ∧ hexWord 0x89ABCDEF = "89ABCDEF"

/-! ### The command lifecycle -/

/-- The Engine's completion step runs the command that the latched word decodes to, at that state (60_exceptions.md
R200); a listed turn of the Engine is used up, and with no turn listed a Busy Engine takes the step of itself (the
model's choice, log 4). The step after `withFetchWord` runs the command placed there, its operands latched from the
registers (log 5). -/
def Obligations.StepRunsTheDecodedCommand : Prop :=
  (∀ (s : State) (l : Latched) (i : Instr) (rest : List Turn), s.phase = .busy l → decode l.cw = .instr i →
    s.turns = .engine :: rest → step s = exec i { s with turns := rest }) ∧
  (∀ (s : State) (l : Latched) (i : Instr), s.phase = .busy l → decode l.cw = .instr i →
    s.turns = [] → step s = exec i s) ∧
  (∀ (s : State) (w : Nat) (i : Instr), w < 4294967296 → decode (BitVec.ofNat 32 w) = .instr i →
    step (s.withFetchWord 32 w) = exec i { s with
      status := 1, phase := .busy ⟨BitVec.ofNat 32 w, s.src, s.dst, s.len, s.din, 0⟩ })

/-- A CMD write while the Engine is Idle issues the word: it is latched with SRC, DST, LEN and DIN, STATUS becomes
0x00000001, and nothing else changes (10_state.md R23, R35). -/
def Obligations.CmdWriteIssuesAndLatches : Prop :=
  ∀ (s : State) (w : Word) (rest : List Turn), s.phase = .idle → s.turns = .write 32 0x00 w :: rest →
    step s = .next { s with
      turns := rest, status := 1, phase := .busy ⟨w, s.src, s.dst, s.len, s.din, 0⟩ }

/-- A CMD write while BUSY = 1 is refused, whether the command runs or is stuck (70_reset_and_hazards.md R240). -/
def Obligations.CommandWhileBusyIsRefused : Prop :=
  ∀ (s : State) (l : Latched) (w : Word) (rest : List Turn), s.phase = .busy l ∨ s.phase = .stuck l →
    s.turns = .write 32 0x00 w :: rest → step s = .refused .commandWhileBusy

/-- A running command ends in exactly one completion, or, for ENCODE and DECODE alone, is stuck with nothing else
changed (but the count of free values, one draw of which a DECODE uses) or is refused by the platform's ranges; it never
faults (60_exceptions.md R200, R205, 20_memory.md R51, R57, R58). That a stuck command has changed nothing is the model's
choice (log 7). -/
def Obligations.RunningCommandCompletesOrIsHeld : Prop :=
  ∀ (i : Instr) (s : State) (l : Latched), s.phase = .busy l →
    (∃ t, exec i s = .next t ∧ t.phase = .idle ∧
      t.status ∈ [(0x02 : Word), 0x16, 0x26, 0x8A, 0x9A, 0xAA, 0xBA]) ∨
    (i = .encode ∧ exec i s = .next { s with phase := .stuck l }) ∨
    (i = .decode ∧ exec i s = .next { s with draws := s.draws + 1, phase := .stuck l }) ∨
    ((i = .encode ∨ i = .decode) ∧
      (exec i s = .refused .registerBlockOverlap ∨ exec i s = .refused .sideEffectLocation))

/-- A stuck Engine never completes: however the agents go on, as long as no reset is among their turns, the command stays
stuck and STATUS stays as it is (20_memory.md R58). -/
def Obligations.StuckEngineNeverCompletes : Prop :=
  ∀ (k : Nat) (s t : State) (l : Latched), s.phase = .stuck l → Turn.reset ∉ s.turns →
    core.run k s = .next t → t.phase = .stuck l ∧ t.status = s.status

/-- A group command completes although the Host polls STATUS first: after any number of polls and one more step the Engine
is Idle with DONE = 1 and BUSY = 0 (60_exceptions.md R200; that the Engine moves when no turn is listed is the model's
choice, log 4). -/
def Obligations.GroupCommandCompletesAfterPolls : Prop :=
  ∀ (k : Nat) (s : State) (l : Latched) (i : Instr), s.phase = .busy l → decode l.cw = .instr i →
    i ≠ .encode → i ≠ .decode → s.turns = List.replicate k (.read 32 0x04 0) →
    ∃ t, core.run (k + 1) s = .next t ∧ t.phase = .idle ∧ doneFlag t.status = true ∧ busyFlag t.status = false

/-- Results are final: a step from an Idle engine that neither issues a command nor resets leaves STATUS, OUTLEN and DOUT,
and leaves memory unless another agent writes it (70_reset_and_hazards.md R245). -/
def Obligations.ResultsStayUntilIssueOrReset : Prop :=
  ∀ (s t : State), s.phase = .idle → step s = .next t → t.phase = .idle → s.turns.head? ≠ some .reset →
    t.status = s.status ∧ t.outlen = s.outlen ∧ t.dout = s.dout ∧
    ((∀ a v, s.turns.head? ≠ some (.memWrite a v)) → t.mem = s.mem)

/-! ### The register block -/

/-- A register access of another width than 32 bits, at an offset that is no multiple of 4, or at a reserved offset is
refused, read or write (10_state.md R22 (a), (b)). Under which name an access with several faults is refused, width before
alignment before reserved offset, is the model's choice (log 15). -/
def Obligations.InadmissibleRegisterAccessesAreRefused : Prop :=
  ∀ (s : State) (width : Nat) (offset : BitVec 6) (v : Word) (k : Nat) (rest : List Turn),
    s.turns = .write width offset v :: rest ∨ s.turns = .read width offset k :: rest →
    (width ≠ 32 → step s = .refused .accessWidth) ∧
    (width = 32 → offset.toNat % 4 ≠ 0 → step s = .refused .misalignedAccess) ∧
    (width = 32 → offset = 0x34 ∨ offset = 0x38 ∨ offset = 0x3C → step s = .refused .reservedOffset)

/-- From an Idle engine a read at a register's offset (10_state.md R21) gives the register's value, CMD reading 0; only the
temporary read into changes (R22 (d), (e)). -/
def Obligations.IdleReadsReturnTheRegister : Prop :=
  ([Reg.cmd, .status, .src, .dst, .len, .outlen, .din 0, .din 1, .din 2, .dout 0, .dout 1, .dout 2, .dout 3].map
      regOffset = [0x00, 0x04, 0x08, 0x0C, 0x10, 0x14, 0x18, 0x1C, 0x20, 0x24, 0x28, 0x2C, 0x30]) ∧
  ∀ (s : State) (r : Reg) (k : Nat) (rest : List Turn), s.phase = .idle →
    sparseWf unwrittenTemp s.host.temps = true → s.turns = .read 32 (regOffset r) k :: rest →
    ∃ t, step s = .next t ∧ tempValue t k = regValue s r ∧ (∀ j, j ≠ k → tempValue t j = tempValue s j) ∧
      t = { s with turns := rest, host := { s.host with temps := t.host.temps } }

/-- Reads while Busy: OUTLEN and DOUT give a free value, STATUS gives 0x00000001, and SRC, DST, LEN and DIN give the
register's current value (70_reset_and_hazards.md R241); CMD reads 0 and only the temporary read into and the count of free
values change (10_state.md R22 (d), (e)). -/
def Obligations.ResultReadsWhileBusyAreFree : Prop :=
  ∀ (s : State) (l : Latched) (r : Reg) (k : Nat) (rest : List Turn), s.inv = true →
    s.phase = .busy l ∨ s.phase = .stuck l → s.turns = .read 32 (regOffset r) k :: rest →
    ∃ t, step s = .next t ∧
      (r = .outlen ∨ (∃ i, r = .dout i) → tempValue t k = freeWord s.draws ∧ t.draws = s.draws + 4) ∧
      (r ≠ .outlen → (∀ i, r ≠ .dout i) → t.draws = s.draws) ∧
      (r = .cmd → tempValue t k = 0) ∧ (r = .status → tempValue t k = 0x00000001) ∧
      (r = .src → tempValue t k = s.src) ∧ (r = .dst → tempValue t k = s.dst) ∧ (r = .len → tempValue t k = s.len) ∧
      (∀ i, r = .din i → tempValue t k = s.din[i]) ∧
      (∀ j, j ≠ k → tempValue t j = tempValue s j) ∧
      t = { s with turns := rest, draws := t.draws, host := { s.host with temps := t.host.temps } }

/-- A write to SRC, DST, LEN or DIN stores the value, Busy or not, and a write to a read-only register changes nothing
(10_state.md R22 (c), (f), R25, R26). -/
def Obligations.RegisterWritesStoreOrAreIgnored : Prop :=
  ∀ (s : State) (r : Reg) (v : Word) (rest : List Turn), s.turns = .write 32 (regOffset r) v :: rest →
    (r = .src → step s = .next { s with turns := rest, src := v }) ∧
    (r = .dst → step s = .next { s with turns := rest, dst := v }) ∧
    (r = .len → step s = .next { s with turns := rest, len := v }) ∧
    (∀ i, r = .din i → step s = .next { s with turns := rest, din := s.din.set i v }) ∧
    (r = .status ∨ r = .outlen ∨ (∃ i, r = .dout i) → step s = .next { s with turns := rest })

/-- Other values in SRC, DST, LEN and DIN make no difference to a running command: it reads the latched copies alone, and
the registers keep those values (10_state.md R35, 70_reset_and_hazards.md R244). -/
def Obligations.RunningCommandIgnoresTheOperandRegisters : Prop :=
  ∀ (i : Instr) (s : State) (src dst len : Word) (din : Vector Word 3),
    exec i (withOperands src dst len din s) = mapNext (withOperands src dst len din) (exec i s)

/-- No command writes SRC, DST, LEN or DIN, nor what is not the Engine's (10_state.md R26, R33). -/
def Obligations.NoCommandWritesTheOperandRegisters : Prop :=
  ∀ (i : Instr) (s t : State), exec i s = .next t → sameOperands s t ∧ sameSurroundings s t

/-! ### Other agents on the memory -/

/-- While an ENCODE or a DECODE is Busy: a foreign write to a byte of either range is refused; a read of a destination byte
gives a free value; a read of a source byte gives the memory's value (70_reset_and_hazards.md R242). That a DECODE of a
length that is no multiple of 4 has the destination range of the rounded-down quotient is the model's choice (log 8).
The model's choice too (log 13): a byte in both ranges counts as one of the destination; a read of a destination byte has no
effect also where the location has side effects; elsewhere such a location is refused to the agent. -/
def Obligations.ForeignAccessesWhileABufferCommandRuns : Prop :=
  ∀ (s : State) (l : Latched) (om : Nat) (a : Word) (v : Byte) (k : Nat) (rest : List Turn), s.inv = true →
    s.phase = .busy l ∨ s.phase = .stuck l →
    (decode l.cw = .instr .encode ∧ om = 4 * ((l.len.toNat + 2) / 3)) ∨
      (decode l.cw = .instr .decode ∧ om = 3 * (l.len.toNat / 4)) →
    ((l.src.toNat ≤ a.toNat ∧ a.toNat < l.src.toNat + l.len.toNat) ∨
        (l.dst.toNat ≤ a.toNat ∧ a.toNat < l.dst.toNat + om) →
      s.turns = .memWrite a v :: rest → step s = .refused .bufferInUse) ∧
    (l.dst.toNat ≤ a.toNat ∧ a.toNat < l.dst.toNat + om → s.turns = .memRead a k :: rest →
      ∃ t, step s = .next t ∧ tempValue t k = (Config.freeByte s.draws).setWidth 32 ∧ t.mem = s.mem) ∧
    ((l.src.toNat ≤ a.toNat ∧ a.toNat < l.src.toNat + l.len.toNat) →
      ¬ (l.dst.toNat ≤ a.toNat ∧ a.toNat < l.dst.toNat + om) → ordinary s.platform a.toNat = true →
      s.turns = .memRead a k :: rest →
      ∃ t, step s = .next t ∧ tempValue t k = (readByte s.mem a.toNat).setWidth 32 ∧ t.mem = s.mem)

/-- A foreign write to ordinary memory while no buffer command is Busy stores its byte and has no other effect, and a later
read gives the value written (20_memory.md R57). That MEM_ADMITS does not restrict such an agent, so that the write also
completes where the platform does not back the address for the Engine, is the model's choice (log 13). -/
def Obligations.ForeignWritesStoreTheirByte : Prop :=
  ∀ (s : State) (a : Word) (v : Byte) (rest : List Turn), Memory.wf s.mem = true →
    (∀ l, s.phase = .busy l ∨ s.phase = .stuck l → decode l.cw ≠ .instr .encode ∧ decode l.cw ≠ .instr .decode) →
    ordinary s.platform a.toNat = true → s.turns = .memWrite a v :: rest →
    ∃ t, step s = .next t ∧ readByte t.mem a.toNat = v ∧ sameOutside a.toNat 1 s t ∧
      t = { s with turns := rest, mem := t.mem }

/-! ### Tables and checks -/

/-- The table laws (40_lookup.md R102). -/
def Obligations.TableLaws : Prop :=
  ∀ p : Platform,
    (∀ i : Sextet, rev p (fwd i) = i.setWidth 8) ∧
    ((List.range 256).filter (fun n => !(rev p (BitVec.ofNat 8 n)).getLsbD 7)).length = 64 ∧
    (∀ b : Byte, (rev p b).getLsbD 7 = false →
      (rev p b).extractLsb' 6 2 = 0 ∧ fwd ((rev p b).extractLsb' 0 6) = b) ∧
    (∀ b : Byte, (rev p b).getLsbD 7 = true → rev p b = revSentinel p) ∧
    (∀ i j : Sextet, fwd i = fwd j → i = j)

/-- The combined validity test (42_decode.md R141): the OR of the REV outputs has bit 7 set exactly if some character is not
of the alphabet, whatever the sentinel. -/
def Obligations.CombinedOrTestFindsAnyInvalidCharacter : Prop :=
  ∀ (p : Platform) (cs : List Byte),
    ((cs.map (rev p)).foldl (fun x y => x ||| y) 0) &&& 0x80 ≠ 0 ↔ ∃ c ∈ cs, isAlphabet c.toNat = false

/-- Legal groups (42_decode.md R140, R142): a non-final group is legal exactly if its four characters are of the alphabet; a
final group exactly in the shapes xxxx, xxx= and xx==, whose padding counts are 0, 1 and 2. -/
def Obligations.LegalGroupsHaveTheThreeShapes : Prop :=
  ∀ (q : Quad) (pad : Nat),
    (legal4 q false = .legal pad ↔ isAlphabet q.c0.toNat = true ∧ isAlphabet q.c1.toNat = true ∧
      isAlphabet q.c2.toNat = true ∧ isAlphabet q.c3.toNat = true ∧ pad = 0) ∧
    (legal4 q true = .legal pad ↔ isAlphabet q.c0.toNat = true ∧ isAlphabet q.c1.toNat = true ∧
      ((isAlphabet q.c2.toNat = true ∧ isAlphabet q.c3.toNat = true ∧ pad = 0) ∨
       (isAlphabet q.c2.toNat = true ∧ q.c3 = 0x3D ∧ pad = 1) ∨ (q.c2 = 0x3D ∧ q.c3 = 0x3D ∧ pad = 2)))

/-! ### Results of the group commands -/

/-- FLOOKUP (40_lookup.md R105), the word 0x00000001: DOUT[0] holds the character of DIN[0] bits 5:0, OUTLEN 1, STATUS
0x00000002. -/
def Obligations.FlookupResult : Prop :=
  decode 0x00000001 = .instr .flookup ∧
  ∀ (s : State) (l : Latched), s.phase = .busy l →
    exec .flookup s = .next { s with
      dout := s.dout.set 0 (BitVec.ofNat 32 (alphabetChar (l.din[0].toNat % 64)))
      outlen := 1, status := 0x00000002, phase := .idle }

/-- RLOOKUP (40_lookup.md R106), the word 0x00000002: DOUT[0] holds the 6-bit value of the byte in DIN[0] bits 7:0, or the
sentinel, a byte with bit 7 = 1, as data. -/
def Obligations.RlookupResult : Prop :=
  decode 0x00000002 = .instr .rlookup ∧
  ∀ (s : State) (l : Latched), s.phase = .busy l →
    (∀ v, v < 64 → alphabetChar v = l.din[0].toNat % 256 →
      exec .rlookup s = .next { s with
        dout := s.dout.set 0 (BitVec.ofNat 32 v), outlen := 1, status := 0x00000002, phase := .idle }) ∧
    ((∀ v, v < 64 → alphabetChar v ≠ l.din[0].toNat % 256) →
      exec .rlookup s = .next { s with
        dout := s.dout.set 0 (BitVec.ofNat 32 (128 + s.platform.sentinelLow.toNat))
        outlen := 1, status := 0x00000002, phase := .idle })

/-- ENC3 n (41_encode.md R120, R121), the words 0x00000013, 0x00000023 and 0x00000033: DOUT[0] holds the text of the first
n bytes of DIN[0]; the other lanes are ignored. -/
def Obligations.Enc3Result : Prop :=
  decode 0x00000013 = .instr (.enc3 1) ∧ decode 0x00000023 = .instr (.enc3 2) ∧ decode 0x00000033 = .instr (.enc3 3) ∧
  ∀ (s : State) (l : Latched) (n : BitVec 2), s.phase = .busy l → n ≠ 0 →
    exec (.enc3 n) s = .next { s with
      dout := s.dout.set 0 (groupWord n.toNat (byteOf l.din[0].toNat 0)
        (if 1 < n.toNat then byteOf l.din[0].toNat 1 else 0) (if 2 < n.toNat then byteOf l.din[0].toNat 2 else 0))
      outlen := 4, status := 0x00000002, phase := .idle }

/-- ENC12 (41_encode.md R125), the word 0x00000004: DOUT[g] holds the text of bytes 3g to 3g + 2 of DIN[0..2]. -/
def Obligations.Enc12Result : Prop :=
  decode 0x00000004 = .instr .enc12 ∧
  ∀ (s : State) (l : Latched), s.phase = .busy l →
    exec .enc12 s = .next { s with
      dout := #v[
        groupWord 3 (byteOf l.din[0].toNat 0) (byteOf l.din[0].toNat 1) (byteOf l.din[0].toNat 2),
        groupWord 3 (byteOf l.din[0].toNat 3) (byteOf l.din[1].toNat 0) (byteOf l.din[1].toNat 1),
        groupWord 3 (byteOf l.din[1].toNat 2) (byteOf l.din[1].toNat 3) (byteOf l.din[2].toNat 0),
        groupWord 3 (byteOf l.din[2].toNat 1) (byteOf l.din[2].toNat 2) (byteOf l.din[2].toNat 3)]
      outlen := 16, status := 0x00000002, phase := .idle }

/-- ENC12 is lane-wise ENC3 (41_encode.md R126): DOUT[g] equals DOUT[0] of `ENC3 3` on a DIN[0] that holds bytes 3g to 3g + 2
in lanes 0 to 2. -/
def Obligations.Enc12IsLanewiseEnc3 : Prop :=
  ∀ (s s' t t' : State) (l l' : Latched) (g : Fin 4), s.phase = .busy l → s'.phase = .busy l' →
    (∀ k : Fin 3, lane l'.din[0] k.val = groupByte l.din ⟨3 * g.val + k.val, by omega⟩) →
    exec .enc12 s = .next t → exec (.enc3 3) s' = .next t' → t.dout[g] = t'.dout[0]

/-- DEC4 on a legal group (42_decode.md R145, R146, R147): DOUT[0] holds the 3 - p real bytes, 0x00 above them, OUTLEN is
3 - p and STATUS 0x00000002; the discarded bits of a padded group do not matter. -/
def Obligations.Dec4AcceptsLegalGroups : Prop :=
  ∀ (s : State) (l : Latched) (final : Bool) (c : Fin 4 → Nat) (pad : Nat), s.phase = .busy l →
    c = (fun i => byteOf l.din[0].toNat i.val) → (∀ i, badPosition c final i = false) →
    pad = (if final = true ∧ c 3 = 0x3D then (if c 2 = 0x3D then 2 else 1) else 0) →
    exec (.dec4 final) s = .next { s with
      dout := s.dout.set 0 (BitVec.ofNat 32
        (groupOut (charValue (c 0)) (charValue (c 1)) (charValue (c 2)) (charValue (c 3)) 0 +
        (if pad ≤ 1 then 256 * groupOut (charValue (c 0)) (charValue (c 1)) (charValue (c 2))
          (charValue (c 3)) 1 else 0) +
        (if pad = 0 then 65536 * groupOut (charValue (c 0)) (charValue (c 1)) (charValue (c 2))
          (charValue (c 3)) 2 else 0)))
      outlen := BitVec.ofNat 32 (3 - pad), status := 0x00000002, phase := .idle }

/-- DEC4 on an illegal group (42_decode.md R143, R144, R145, R152): the character at the first illegal position gives the
cause, DOUT[0] takes a free value, OUTLEN is 0. -/
def Obligations.Dec4RejectsAtTheFirstIllegalPosition : Prop :=
  ∀ (s : State) (l : Latched) (final : Bool) (c : Fin 4 → Nat) (i : Fin 4), s.phase = .busy l →
    c = (fun k => byteOf l.din[0].toNat k.val) → badPosition c final i = true →
    (∀ j, j < i → badPosition c final j = false) →
    exec (.dec4 final) s = .next { s with
      dout := s.dout.set 0 (freeWord s.draws), draws := s.draws + 4
      outlen := 0, status := rejectStatus (c i), phase := .idle }

/-- DEC8 on two legal groups (42_decode.md R150): the first group is checked as non-final, the second as FINAL says; the six
bytes stand in DOUT[0] and DOUT[1], bytes the padding drops being 0x00, and OUTLEN is 6 - p. -/
def Obligations.Dec8AcceptsLegalBlocks : Prop :=
  ∀ (s : State) (l : Latched) (final : Bool) (c d : Fin 4 → Nat) (pad : Nat), s.phase = .busy l →
    c = (fun i => byteOf l.din[0].toNat i.val) → d = (fun i => byteOf l.din[1].toNat i.val) →
    (∀ i, badPosition c false i = false) → (∀ i, badPosition d final i = false) →
    pad = (if final = true ∧ d 3 = 0x3D then (if d 2 = 0x3D then 2 else 1) else 0) →
    exec (.dec8 final) s = .next { s with
      dout := (s.dout.set 0 (BitVec.ofNat 32
        (groupOut (charValue (c 0)) (charValue (c 1)) (charValue (c 2)) (charValue (c 3)) 0 +
        256 * groupOut (charValue (c 0)) (charValue (c 1)) (charValue (c 2)) (charValue (c 3)) 1 +
        65536 * groupOut (charValue (c 0)) (charValue (c 1)) (charValue (c 2)) (charValue (c 3)) 2 +
        16777216 * groupOut (charValue (d 0)) (charValue (d 1)) (charValue (d 2))
          (charValue (d 3)) 0))).set 1 (BitVec.ofNat 32
        ((if pad ≤ 1 then groupOut (charValue (d 0)) (charValue (d 1)) (charValue (d 2))
          (charValue (d 3)) 1 else 0) +
        (if pad = 0 then 256 * groupOut (charValue (d 0)) (charValue (d 1)) (charValue (d 2))
          (charValue (d 3)) 2 else 0)))
      outlen := BitVec.ofNat 32 (6 - pad), status := 0x00000002, phase := .idle }

/-- DEC8 on an illegal block (42_decode.md R144, R150, R152): the first illegal position over all eight characters gives the
cause, a `=` in the first group being illegal under either FINAL; DOUT[0] and DOUT[1] take free values, OUTLEN is 0. -/
def Obligations.Dec8RejectsAtTheFirstIllegalPosition : Prop :=
  ∀ (s : State) (l : Latched) (final : Bool) (c d : Fin 4 → Nat) (i : Fin 4) (ch : Nat), s.phase = .busy l →
    c = (fun k => byteOf l.din[0].toNat k.val) → d = (fun k => byteOf l.din[1].toNat k.val) →
    (badPosition c false i = true ∧ (∀ j, j < i → badPosition c false j = false) ∧ ch = c i) ∨
      ((∀ j, badPosition c false j = false) ∧ badPosition d final i = true ∧
        (∀ j, j < i → badPosition d final j = false) ∧ ch = d i) →
    exec (.dec8 final) s = .next { s with
      dout := (s.dout.set 0 (freeWord s.draws)).set 1 (freeWord (s.draws + 4)), draws := s.draws + 8
      outlen := 0, status := rejectStatus ch, phase := .idle }

/-- DEC8 is two DEC4s (42_decode.md R151): it fails exactly if one of them fails, with the first group's cause if that one
fails, else the second's; on success its bytes are theirs, one after the other, and OUTLEN is the sum. -/
def Obligations.Dec8IsTwoDec4 : Prop :=
  ∀ (s s0 s1 t t0 t1 : State) (l l0 l1 : Latched) (final : Bool),
    s.phase = .busy l → s0.phase = .busy l0 → s1.phase = .busy l1 →
    l0.din[0] = l.din[0] → l1.din[0] = l.din[1] →
    exec (.dec8 final) s = .next t → exec (.dec4 false) s0 = .next t0 → exec (.dec4 final) s1 = .next t1 →
    (failFlag t.status = (failFlag t0.status || failFlag t1.status)) ∧
    (failFlag t0.status = true → t.status = t0.status) ∧
    (failFlag t0.status = false → failFlag t1.status = true → t.status = t1.status) ∧
    (failFlag t0.status = false → failFlag t1.status = false →
      t.outlen = t0.outlen + t1.outlen ∧
      t.dout[0] = packWord (lane t1.dout[0] 0) (lane t0.dout[0] 2) (lane t0.dout[0] 1) (lane t0.dout[0] 0) ∧
      t.dout[1] = packWord 0 0 (lane t1.dout[0] 2) (lane t1.dout[0] 1))

/-- ACLASS (43_buffer.md R170, R171), the words 0x00000007 and 0x00000047: DOUT[0] holds param : class : residue of SRC, by
the residue modulo 4. -/
def Obligations.AclassResult : Prop :=
  decode 0x00000007 = .instr (.aclass .encodeSide) ∧ decode 0x00000047 = .instr (.aclass .decodeSide) ∧
  ∀ (s : State) (l : Latched) (dir : Side) (x : Word), s.phase = .busy l →
    (dir = .encodeSide ∧ ((l.src.toNat % 4 = 0 ∧ x = 0x00) ∨ (l.src.toNat % 4 = 1 ∧ x = 0x35) ∨
      (l.src.toNat % 4 = 2 ∧ x = 0x0A) ∨ (l.src.toNat % 4 = 3 ∧ x = 0x0B))) ∨
    (dir = .decodeSide ∧ ((l.src.toNat % 4 = 0 ∧ x = 0x00) ∨ (l.src.toNat % 4 = 1 ∧ x = 0x19) ∨
      (l.src.toNat % 4 = 2 ∧ x = 0x2A) ∨ (l.src.toNat % 4 = 3 ∧ x = 0x3B))) →
    exec (.aclass dir) s = .next { s with
      dout := s.dout.set 0 x, outlen := 1, status := 0x00000002, phase := .idle }

/-! ### The buffer commands -/

/-- ENCODE of a non-empty source whose ranges are clear and backed (43_buffer.md R175): each group of the source, the last
one of 1 or 2 bytes perhaps, gives four characters at the destination; OUTLEN is 4 * ceil(L / 3), STATUS 0x00000002; every
byte outside the destination, every other register and DOUT stay as they are. -/
def Obligations.EncodeWritesTheText : Prop :=
  ∀ (s : State) (l : Latched) (n : Nat), s.phase = .busy l → Memory.wf s.mem = true → n = l.len.toNat → 0 < n →
    rangesClear (encodeJob l) → rangesBacked s.platform (encodeJob l) →
    ∃ t, exec .encode s = .next t ∧
      t = { s with mem := t.mem, outlen := BitVec.ofNat 32 (4 * ((n + 2) / 3)), status := 0x00000002, phase := .idle } ∧
      (∀ g j, g < (n + 2) / 3 → j < 4 →
        byteAt t l.dst.toNat (4 * g + j) = groupChar (min 3 (n - 3 * g)) (byteAt s l.src.toNat (3 * g))
          (if 3 * g + 1 < n then byteAt s l.src.toNat (3 * g + 1) else 0)
          (if 3 * g + 2 < n then byteAt s l.src.toNat (3 * g + 2) else 0) j) ∧
      sameOutside l.dst.toNat (4 * ((n + 2) / 3)) s t

/-- The programmer errors of ENCODE in their order (43_buffer.md R175, 60_exceptions.md R206): nothing changes but OUTLEN, to
0, and STATUS, the Engine becoming Idle. That these checks come before the refusals of
20_memory.md R51 and R57, so that a command that fails one completes wherever its ranges lie, is the model's reading (log
6). -/
def Obligations.EncodeReportsProgrammerErrors : Prop :=
  ∀ (s : State) (l : Latched) (n om : Nat), s.phase = .busy l → n = l.len.toNat → om = 4 * ((n + 2) / 3) →
    (n = 0 → exec .encode s = .next { s with outlen := 0, status := 0x0000009A, phase := .idle }) ∧
    (n ≠ 0 → 4294967296 < l.src.toNat + n ∨ 4294967296 < l.dst.toNat + om →
      exec .encode s = .next { s with outlen := 0, status := 0x000000AA, phase := .idle }) ∧
    (n ≠ 0 → l.src.toNat + n ≤ 4294967296 → l.dst.toNat + om ≤ 4294967296 →
      l.src.toNat < l.dst.toNat + om → l.dst.toNat < l.src.toNat + n →
      exec .encode s = .next { s with outlen := 0, status := 0x000000BA, phase := .idle })

/-- The checks of DECODE before its data, in their order (43_buffer.md R180, R181 (a), 60_exceptions.md R206): nothing
changes but OUTLEN, to 0, and STATUS, the Engine becoming Idle. That these checks come before the refusals of
20_memory.md R51 and R57, so that a command that fails one completes wherever its ranges lie, is the model's reading (log
6). -/
def Obligations.DecodeReportsLengthRangeAndOverlap : Prop :=
  ∀ (s : State) (l : Latched) (n om : Nat), s.phase = .busy l → n = l.len.toNat → om = 3 * (n / 4) →
    (n = 0 ∨ n % 4 ≠ 0 → exec .decode s = .next { s with outlen := 0, status := 0x00000026, phase := .idle }) ∧
    (n ≠ 0 → n % 4 = 0 → 4294967296 < l.src.toNat + n ∨ 4294967296 < l.dst.toNat + om →
      exec .decode s = .next { s with outlen := 0, status := 0x000000AA, phase := .idle }) ∧
    (n ≠ 0 → n % 4 = 0 → l.src.toNat + n ≤ 4294967296 → l.dst.toNat + om ≤ 4294967296 →
      l.src.toNat < l.dst.toNat + om → l.dst.toNat < l.src.toNat + n →
      exec .decode s = .next { s with outlen := 0, status := 0x000000BA, phase := .idle })

/-- ENCODE and DECODE that pass their checks are refused where a range meets the register block in a shared space
(20_memory.md R51), and else where a range holds a location with side effects (R57). That the refusal comes after the
checks is the model's reading (log 6). -/
def Obligations.BufferRangesThePlatformForbidsAreRefused : Prop :=
  ∀ (s : State) (l : Latched) (i : Instr) (j : Job), s.phase = .busy l → 0 < j.len →
    (i = .encode ∧ j = ⟨l.src.toNat, l.len.toNat, l.dst.toNat, 4 * ((l.len.toNat + 2) / 3)⟩) ∨
      (i = .decode ∧ l.len.toNat % 4 = 0 ∧ j = ⟨l.src.toNat, l.len.toNat, l.dst.toNat, 3 * (l.len.toNat / 4)⟩) →
    rangesClear j →
    ((s.platform.sharedSpace = true ∧ ∃ a, ((j.src ≤ a ∧ a < j.src + j.len) ∨ (j.dst ≤ a ∧ a < j.dst + j.outMax)) ∧
        64 * s.platform.regBlock ≤ a ∧ a < 64 * s.platform.regBlock + 64) →
      exec i s = .refused .registerBlockOverlap) ∧
    (¬ (s.platform.sharedSpace = true ∧ ∃ a, ((j.src ≤ a ∧ a < j.src + j.len) ∨ (j.dst ≤ a ∧ a < j.dst + j.outMax)) ∧
        64 * s.platform.regBlock ≤ a ∧ a < 64 * s.platform.regBlock + 64) →
      (∃ a, ((j.src ≤ a ∧ a < j.src + j.len) ∨ (j.dst ≤ a ∧ a < j.dst + j.outMax)) ∧
        ∃ r ∈ s.platform.sideEffects, r.base ≤ a ∧ a < r.base + r.size) →
      exec i s = .refused .sideEffectLocation)

/-- An access that a buffer command surely makes and the platform does not back leaves the Engine stuck with nothing else
changed but the count of free values, BUSY staying 1 (20_memory.md R58): any source or destination byte of ENCODE; any
character of DECODE before whose group no position is illegal, so every one up to the end of the failing group; and any
destination byte of a legal text before those that the padding leaves. That memory is as it was is the model's choice, and
so is what becomes of the accesses DECODE may or may not make (log 7). -/
def Obligations.UnbackedAccessLeavesTheEngineStuck : Prop :=
  ∀ (s : State) (l : Latched) (a : Nat), s.phase = .busy l → 0 < l.len.toNat →
    (rangesClear (encodeJob l) → platformRefusal s.platform (encodeJob l) = none →
      (l.src.toNat ≤ a ∧ a < l.src.toNat + l.len.toNat ∧ ∃ r ∈ s.platform.noRead, r.base ≤ a ∧ a < r.base + r.size) ∨
        (l.dst.toNat ≤ a ∧ a < l.dst.toNat + 4 * ((l.len.toNat + 2) / 3) ∧
          ∃ r ∈ s.platform.noWrite, r.base ≤ a ∧ a < r.base + r.size) →
      exec .encode s = .next { s with phase := .stuck l }) ∧
    (l.len.toNat % 4 = 0 → rangesClear (decodeJob l) → platformRefusal s.platform (decodeJob l) = none →
      (∃ i, i < l.len.toNat ∧ a = l.src.toNat + i ∧
          (∀ k, k < 4 * (i / 4) → badTextPosition (byteAt s l.src.toNat) l.len.toNat k = false) ∧
          ∃ r ∈ s.platform.noRead, r.base ≤ a ∧ a < r.base + r.size) ∨
        (l.dst.toNat ≤ a ∧
          a < l.dst.toNat + (3 * (l.len.toNat / 4) - textPad (byteAt s l.src.toNat) l.len.toNat) ∧
          (∀ k, k < l.len.toNat → badTextPosition (byteAt s l.src.toNat) l.len.toNat k = false) ∧
          ∃ r ∈ s.platform.noWrite, r.base ≤ a ∧ a < r.base + r.size) →
      exec .decode s = .next { s with draws := s.draws + 1, phase := .stuck l })

/-- DECODE of a text with an illegal position (43_buffer.md R180, R183, 42_decode.md R144): the first one over the whole text
gives the cause, OUTLEN is 0, every destination byte takes a free value, and every byte outside the destination, every
other register and DOUT stay as they are. -/
def Obligations.DecodeRejectsIllegalText : Prop :=
  ∀ (s : State) (l : Latched) (n k : Nat) (c : Nat → Nat), s.phase = .busy l → Memory.wf s.mem = true →
    n = l.len.toNat → 0 < n → n % 4 = 0 → rangesClear (decodeJob l) → rangesBacked s.platform (decodeJob l) →
    c = byteAt s l.src.toNat → k < n → badTextPosition c n k = true →
    (∀ k', k' < k → badTextPosition c n k' = false) →
    ∃ t, exec .decode s = .next t ∧
      t = { s with
        mem := t.mem, draws := t.draws, outlen := 0, status := rejectStatus (c k), phase := .idle } ∧
      (∀ x, x < 3 * (n / 4) → ∃ d, s.draws ≤ d ∧ d < t.draws ∧
        readByte t.mem (l.dst.toNat + x) = Config.freeByte d) ∧
      sameOutside l.dst.toNat (3 * (n / 4)) s t

/-- DECODE of a legal text with p trailing `=` (43_buffer.md R180, R182): the destination holds the 3 * (L / 4) - p bytes of
its groups, then p bytes of free values; OUTLEN is 3 * (L / 4) - p, STATUS 0x00000002; every byte outside the destination,
every other register and DOUT stay as they are. -/
def Obligations.DecodeAcceptsLegalText : Prop :=
  ∀ (s : State) (l : Latched) (n p : Nat) (c : Nat → Nat), s.phase = .busy l → Memory.wf s.mem = true →
    n = l.len.toNat → 0 < n → n % 4 = 0 → rangesClear (decodeJob l) → rangesBacked s.platform (decodeJob l) →
    c = byteAt s l.src.toNat → (∀ k, k < n → badTextPosition c n k = false) → p = textPad c n →
    ∃ t, exec .decode s = .next t ∧
      t = { s with
        mem := t.mem, draws := t.draws, outlen := BitVec.ofNat 32 (3 * (n / 4) - p)
        status := 0x00000002, phase := .idle } ∧
      (∀ g j, j < 3 → 3 * g + j < 3 * (n / 4) - p →
        byteAt t l.dst.toNat (3 * g + j) = groupOut (charValue (c (4 * g))) (charValue (c (4 * g + 1)))
          (charValue (c (4 * g + 2))) (charValue (c (4 * g + 3))) j) ∧
      (∀ x, 3 * (n / 4) - p ≤ x → x < 3 * (n / 4) → ∃ d, s.draws ≤ d ∧ d < t.draws ∧
        readByte t.mem (l.dst.toNat + x) = Config.freeByte d) ∧
      sameOutside l.dst.toNat (3 * (n / 4)) s t

/-- The round trip (43_buffer.md R186): DECODE of what ENCODE wrote, from any later state with that memory, completes with
STATUS 0x00000002 and OUTLEN the length of the input, and its destination holds the input. -/
def Obligations.DecodeOfEncodeIsTheIdentity : Prop :=
  ∀ (s t u : State) (l m : Latched) (n : Nat), s.phase = .busy l → Memory.wf s.mem = true → n = l.len.toNat → 0 < n →
    exec .encode s = .next t → t.phase = .idle → t.status = 0x00000002 →
    u.phase = .busy m → u.mem = t.mem → m.src = l.dst → m.len = BitVec.ofNat 32 (4 * ((n + 2) / 3)) →
    rangesClear (decodeJob m) → rangesBacked u.platform (decodeJob m) →
    ∃ v, exec .decode u = .next v ∧ v.status = 0x00000002 ∧ v.outlen = l.len ∧
      ∀ k, k < n → byteAt v m.dst.toNat k = byteAt s l.src.toNat k

/-- The encoder works in 12-byte blocks (43_buffer.md R176): the text of a 12-byte block and what follows it is the sixteen
characters that ENC12 leaves in DOUT for the block, then the text of what follows. -/
def Obligations.EncodedTextIsBlockwiseEnc12 : Prop :=
  ∀ (s t : State) (l : Latched) (more : List Byte), s.phase = .busy l → exec .enc12 s = .next t →
    encodeText (((List.finRange 12).map fun k => groupByte l.din k) ++ more) =
      (((List.finRange 16).map fun k => lane t.dout[k.val / 4] (k.val % 4)) ++ encodeText more)

/-- Alignment is not observable (43_buffer.md R172): two buffer commands on the same source bytes, at whatever addresses and
to whatever destinations, give the same STATUS and OUTLEN and the same meaningful destination bytes. -/
def Obligations.AlignmentIsNotObservable : Prop :=
  ∀ (s s' t t' : State) (l l' : Latched) (i : Instr) (j j' : Job), s.phase = .busy l → s'.phase = .busy l' →
    Memory.wf s.mem = true → Memory.wf s'.mem = true → l'.len = l.len →
    (i = .encode ∧ j = encodeJob l ∧ j' = encodeJob l') ∨ (i = .decode ∧ j = decodeJob l ∧ j' = decodeJob l') →
    rangesClear j → rangesClear j' → rangesBacked s.platform j → rangesBacked s'.platform j' →
    (∀ k, k < l.len.toNat → byteAt s' l'.src.toNat k = byteAt s l.src.toNat k) →
    exec i s = .next t → exec i s' = .next t' →
    t'.status = t.status ∧ t'.outlen = t.outlen ∧
      ∀ k, k < t.outlen.toNat → byteAt t' l'.dst.toNat k = byteAt t l.dst.toNat k

/-- The length laws (43_buffer.md R187): what OUTLEN is after a successful ENCODE and a successful DECODE, and that ENCODE
writes only alphabet characters and `=`. -/
def Obligations.SuccessfulBufferCommandsObeyTheLengthLaws : Prop :=
  (∀ (s t : State) (l : Latched), s.phase = .busy l → exec .encode s = .next t → t.phase = .idle →
    t.status = 0x00000002 → t.outlen.toNat = 4 * ((l.len.toNat + 2) / 3) ∧
      (Memory.wf s.mem = true → ∀ k, k < t.outlen.toNat →
        isAlphabet (byteAt t l.dst.toNat k) = true ∨ byteAt t l.dst.toNat k = 0x3D)) ∧
  (∀ (s t : State) (l : Latched), s.phase = .busy l → exec .decode s = .next t → t.phase = .idle →
    t.status = 0x00000002 →
    t.outlen.toNat = 3 * (l.len.toNat / 4) - textPad (byteAt s l.src.toNat) l.len.toNat)

/-! ### The whole machine -/

/-- A data-validity failure (60_exceptions.md R202): only DEC4, DEC8 and DECODE end in one, with OUTLEN 0, STATUS 0x00000016
or 0x00000026 and the Engine Idle. -/
def Obligations.OnlyDecodeOperationsFail : Prop :=
  ∀ (i : Instr) (s t : State) (l : Latched), s.phase = .busy l → s.status = 1 → exec i s = .next t →
    failFlag t.status = true →
    ((∃ f, i = .dec4 f) ∨ (∃ f, i = .dec8 f) ∨ i = .decode) ∧ t.outlen = 0 ∧ t.phase = .idle ∧
      (t.status = 0x00000016 ∨ t.status = 0x00000026)

/-- A programmer error (60_exceptions.md R203): it changes nothing but OUTLEN, to 0, and STATUS, to one of the four words, the
Engine becoming Idle; so it accesses no memory and writes no DOUT. -/
def Obligations.ProgrammerErrorsChangeOnlyStatusAndOutlen : Prop :=
  ∀ (i : Instr) (s t : State) (l : Latched), s.phase = .busy l → s.status = 1 → exec i s = .next t →
    perrFlag t.status = true →
    t = { s with outlen := 0, status := t.status, phase := .idle } ∧
      t.status ∈ [(0x0000008A : Word), 0x0000009A, 0x000000AA, 0x000000BA]

/-- The Engine writes no byte outside `[dst, dst + OutMax)` (20_memory.md R56), at completion or before; a command that is
no ENCODE and no DECODE leaves the memory as it is (R50). That an access may come before completion is the model's choice
(log 9), and so is the range of a DECODE of a length that is no multiple of 4 (log 8). -/
def Obligations.EngineWritesOnlyTheDestination : Prop :=
  (∀ (i : Instr) (s t : State), exec i s = .next t → i ≠ .encode → i ≠ .decode → t.mem = s.mem) ∧
  (∀ (s t : State) (l : Latched), s.phase = .busy l → exec .encode s = .next t →
    sameOutside l.dst.toNat (4 * ((l.len.toNat + 2) / 3)) s t) ∧
  (∀ (s t : State) (l : Latched), s.phase = .busy l → exec .decode s = .next t →
    sameOutside l.dst.toNat (3 * (l.len.toNat / 4)) s t) ∧
  (∀ (s t : State) (l : Latched) (rest : List Turn), s.phase = .busy l → s.turns = .engineAccess :: rest →
    step s = .next t →
    (decode l.cw = .instr .encode → sameOutside l.dst.toNat (4 * ((l.len.toNat + 2) / 3)) s t) ∧
    (decode l.cw = .instr .decode → sameOutside l.dst.toNat (3 * (l.len.toNat / 4)) s t) ∧
    (decode l.cw ≠ .instr .encode → decode l.cw ≠ .instr .decode → t.mem = s.mem))

/-- Right after reset every register holds 0, CMD reads 0, the Engine is Idle, and FWD and REV hold their contents
(10_state.md R38). -/
def Obligations.ResetStateHasEveryRegisterZero : Prop :=
  State.reset.status = 0 ∧ State.reset.src = 0 ∧ State.reset.dst = 0 ∧ State.reset.len = 0 ∧ State.reset.outlen = 0 ∧
    State.reset.din = #v[0, 0, 0] ∧ State.reset.dout = #v[0, 0, 0, 0] ∧ State.reset.phase = .idle ∧
    (∀ k, tempValue (readReg .cmd k State.reset) k = 0) ∧
    (∀ i : Sextet, (fwd i).toNat = alphabetChar i.toNat) ∧
    (∀ i : Sextet, rev State.reset.platform (fwd i) = i.setWidth 8) ∧
    (∀ b : Byte, (∀ i : Sextet, fwd i ≠ b) → rev State.reset.platform b = revSentinel State.reset.platform)

/-- The reset input (70_reset_and_hazards.md R230, R243): every register becomes 0 and the Engine Idle without DONE, whatever
it was doing. If an ENCODE or a DECODE was Busy, every byte of its destination below 2^32 takes a free value (for a DECODE of
a length that is no multiple of 4, the range of the rounded-down quotient: the model's choice, log 8); no other memory is
affected, and nothing outside the Engine is. -/
def Obligations.ResetClearsTheBlockAndAbandonsTheCommand : Prop :=
  ∀ (s : State) (rest : List Turn), s.turns = .reset :: rest → ∃ t, step s = .next t ∧
    t = { s with
      turns := rest, mem := t.mem, draws := t.draws, status := 0, src := 0, dst := 0, len := 0, outlen := 0
      din := #v[0, 0, 0], dout := #v[0, 0, 0, 0], phase := .idle } ∧
    (∀ (l : Latched) (om : Nat), s.phase = .busy l ∨ s.phase = .stuck l →
      (decode l.cw = .instr .encode ∧ om = 4 * ((l.len.toNat + 2) / 3)) ∨
        (decode l.cw = .instr .decode ∧ om = 3 * (l.len.toNat / 4)) →
      sameOutside l.dst.toNat om s t ∧
      (Memory.wf s.mem = true → ∀ k, k < om → l.dst.toNat + k < 4294967296 →
        readByte t.mem (l.dst.toNat + k) = Config.freeByte (s.draws + k))) ∧
    ((∀ l, s.phase = .busy l ∨ s.phase = .stuck l → decode l.cw ≠ .instr .encode ∧ decode l.cw ≠ .instr .decode) →
      t.mem = s.mem)

/-- The state after reset meets the invariant. -/
def Obligations.InvariantHoldsAtReset : Prop := State.reset.inv = true

/-- Every step keeps the invariant: STATUS is a legal combination that shows the phase, with its reserved bits 0
(10_state.md R24, R35), OUTLEN is 0 unless the last command succeeded or one runs (R27), the progress position is in range,
and memory and host temporaries keep their canonical form, memory within the 2^32-byte space (20_memory.md R50). -/
def Obligations.EveryStepKeepsTheInvariant : Prop :=
  ∀ s t : State, s.inv = true → step s = .next t → t.inv = true

/-! ### Host scripts -/

/-- The branch lines, `halt` and labels of a host script (30_encoding.md R77) perform no bus transaction: only the script's
line changes; a branch taken goes to the line its label stands on, one not taken to the next line, whatever its label. The
model's choice (log 12): a label is a line of its own that takes a turn, a branch goes to the first line with its label, a
branch taken to a label the script lacks is refused, and `btst` reads a bit of index 32 or more as 0. -/
def Obligations.BranchLinesOnlyMoveTheScript : Prop :=
  ∀ (s : State) (x n tmp i : Nat) (v : Word) (taken : Bool) (line : Line),
    (line = .btst tmp i x ∧ taken = (tempValue s tmp).getLsbD i) ∨
      (line = .beq tmp v x ∧ taken = decide (tempValue s tmp = v)) ∨
      (line = .bne tmp v x ∧ taken = decide (tempValue s tmp ≠ v)) ∨
      (line = .jmp x ∧ taken = true) ∨ (line = .label x ∧ taken = false) →
    ((taken = true → s.host.script[n]? = some (.label x) ∧ ∀ m, m < n → s.host.script[m]? ≠ some (.label x)) →
      runLine line s =
        .next { s with host := { s.host with line := if taken = true then n else s.host.line + 1 } }) ∧
    (taken = true → Line.label x ∉ s.host.script → runLine line s = .refused .undefinedLabel) ∧
    runLine .halt s = .next s

/-- `poll` (30_encoding.md R78): its lines leave STATUS in the temporary and go back to its label while BUSY = 1, on behind it
once BUSY = 0; every other temporary, the register block and memory stay as they are. That the label takes a turn of its own,
so that one round is three turns, is the model's choice (log 12). -/
def Obligations.PollLoopsWhileBusy : Prop :=
  ∀ (s : State) (before after : List Line) (fresh tmp : Nat),
    s.host.script = before ++ poll fresh tmp ++ after → Line.label fresh ∉ before →
    s.host.line = before.length → sparseWf unwrittenTemp s.host.temps = true → s.turns = [.script, .script, .script] →
    ∃ t, core.run 3 s = .next t ∧ tempValue t tmp = s.status ∧ (∀ j, j ≠ tmp → tempValue t j = tempValue s j) ∧
      t = { s with turns := [], host := { s.host with
        temps := t.host.temps
        line := if busyFlag s.status = true then before.length else before.length + 3 } }
end

