-- ==== Sys2Proof/Laws/Tables.lean ====
section
/-! SUPPORT. The two tables seen as arithmetic on character codes, and the validity test (40_lookup.md R100 to R104). -/

namespace Sys2Proof.Machine

theorem fwd_toNat : ∀ i : Sextet, (fwd i).toNat = alphabetChar i.toNat := by decide

theorem revIndex_fwd : ∀ i : Sextet, revIndex (fwd i) = some i := by decide

theorem revIndex_eq : ∀ b : Byte, revIndex b =
    if isAlphabet b.toNat then some (BitVec.ofNat 6 (alphabetValue b.toNat)) else none := by decide

theorem alphabetChar_value : ∀ b : Byte, isAlphabet b.toNat = true →
    alphabetChar (alphabetValue b.toNat) = b.toNat ∧ alphabetValue b.toNat < 64 := by decide

theorem valid_eq_isAlphabet (b : Byte) : valid b = isAlphabet b.toNat := by
  rw [valid, revIndex_eq]
  cases isAlphabet b.toNat <;> rfl

/-- Bit 7 of the sentinel is 1 on every platform (00_scope.md R5). -/
theorem revSentinel_bit7 (p : Platform) : (revSentinel p).getLsbD 7 = true :=
  (BitVec.getLsbD_append (x := 1#1) (y := p.sentinelLow) (i := 7)).trans rfl

/-- `valid(b)` is REV[b][7] = 0, whatever the sentinel (R103). -/
theorem valid_eq_rev_bit7 (p : Platform) (b : Byte) : valid b = !(rev p b).getLsbD 7 := by
  cases h : revIndex b with
  | none => rw [valid, rev, h, revSentinel_bit7]; rfl
  | some v => simp [valid, rev, h]

/-- The 6-bit value that REV holds for a valid character. -/
theorem rev_sextet (p : Platform) (b : Byte) (h : valid b = true) :
    ((rev p b).extractLsb' 0 6).toNat = alphabetValue b.toNat := by
  rw [valid_eq_isAlphabet] at h
  have hv := (alphabetChar_value b h).2
  have : revIndex b = some (BitVec.ofNat 6 (alphabetValue b.toNat)) := by rw [revIndex_eq, if_pos h]
  simp only [rev, this]
  simp
  omega

/-- Decoding a character of the table gives its value back (R102 (a)). -/
theorem rev_fwd_sextet (p : Platform) (i : Sextet) : (rev p (fwd i)).extractLsb' 0 6 = i := by
  simp only [rev, revIndex_fwd]
  apply BitVec.eq_of_toNat_eq
  have := i.isLt
  simp
  omega

@[simp] theorem valid_fwd (i : Sextet) : valid (fwd i) = true := by simp [valid, revIndex_fwd]

@[simp] theorem valid_padChar : valid padChar = false := by decide

theorem fwd_ne_padChar (i : Sextet) : fwd i ≠ padChar := by
  intro h
  have := valid_fwd i
  rw [h, valid_padChar] at this
  exact Bool.false_ne_true this

end Sys2Proof.Machine
end

