-- ==== Sys2Proof/Laws/Groups.lean ====
section
/-! SUPPORT. The group functions seen as arithmetic: packing of words, the sextets of three bytes and the bytes of four
sextets (00_scope.md R9), group encode (41_encode.md R121), the group check and group decode (42_decode.md R143,
R146). -/

namespace Sys2Proof.Machine

/-- A concatenation as a number. -/
theorem toNat_append_arith {m n : Nat} (x : BitVec m) (y : BitVec n) :
    (x ++ y).toNat = x.toNat * 2 ^ n + y.toNat := by
  rw [BitVec.toNat_append, ← Nat.shiftLeft_add_eq_or_of_lt y.isLt, Nat.shiftLeft_eq]

theorem lane_toNat (w : Word) (k : Nat) : (lane w k).toNat = byteOf w.toNat k := by
  simp only [lane, BitVec.extractLsb'_toNat, byteOf, Nat.shiftRight_eq_div_pow, pow_mul]
  norm_num

theorem packWord_toNat (b3 b2 b1 b0 : Byte) : (packWord b3 b2 b1 b0).toNat =
    b3.toNat * 16777216 + b2.toNat * 65536 + b1.toNat * 256 + b0.toNat := by
  have h1 : (b3 ++ b2).toNat = _ := toNat_append_arith b3 b2
  have h2 : (b1 ++ b0).toNat = _ := toNat_append_arith b1 b0
  refine (toNat_append_arith (b3 ++ b2) (b1 ++ b0)).trans ?_
  rw [h1, h2]
  omega

/-- A packed word from the values of its bytes. -/
theorem packWord_eq (b3 b2 b1 b0 : Byte) : packWord b3 b2 b1 b0 =
    BitVec.ofNat 32 (b0.toNat + 256 * b1.toNat + 65536 * b2.toNat + 16777216 * b3.toNat) := by
  apply BitVec.eq_of_toNat_eq
  have := b3.isLt; have := b2.isLt; have := b1.isLt; have := b0.isLt
  rw [packWord_toNat, BitVec.toNat_ofNat]
  omega

/-- The lanes of a packed word are the bytes packed. -/
theorem lane_packWord (b3 b2 b1 b0 : Byte) :
    lane (packWord b3 b2 b1 b0) 0 = b0 ∧ lane (packWord b3 b2 b1 b0) 1 = b1 ∧
      lane (packWord b3 b2 b1 b0) 2 = b2 ∧ lane (packWord b3 b2 b1 b0) 3 = b3 := by
  have := b3.isLt; have := b2.isLt; have := b1.isLt; have := b0.isLt
  refine ⟨?_, ?_, ?_, ?_⟩ <;> apply BitVec.eq_of_toNat_eq <;> rw [lane_toNat, packWord_toNat, byteOf] <;> omega

/-- A word is packed from its lanes. -/
theorem packWord_lanes (w : Word) : packWord (lane w 3) (lane w 2) (lane w 1) (lane w 0) = w := by
  apply BitVec.eq_of_toNat_eq
  have := w.isLt
  rw [packWord_toNat]
  simp only [lane_toNat, byteOf]
  omega

/-! ### Packing of a group -/

/-- The 24-bit number of three bytes. -/
def tripleNat (t : Triple) : Nat := t.b0.toNat * 65536 + t.b1.toNat * 256 + t.b2.toNat

theorem split3_toNat (t : Triple) :
    (split3 t).s0.toNat = tripleNat t / 262144 % 64 ∧ (split3 t).s1.toNat = tripleNat t / 4096 % 64 ∧
      (split3 t).s2.toNat = tripleNat t / 64 % 64 ∧ (split3 t).s3.toNat = tripleNat t % 64 := by
  have h0 := t.b0.isLt; have h1 := t.b1.isLt; have h2 := t.b2.isLt
  have e1 : (split3 t).s1.toNat = _ := toNat_append_arith (t.b0.extractLsb' 0 2) (t.b1.extractLsb' 4 4)
  have e2 : (split3 t).s2.toNat = _ := toNat_append_arith (t.b1.extractLsb' 0 4) (t.b2.extractLsb' 6 2)
  have e0 : (split3 t).s0 = t.b0.extractLsb' 2 6 := rfl
  have e3 : (split3 t).s3 = t.b2.extractLsb' 0 6 := rfl
  rw [e1, e2, e0, e3]
  simp only [BitVec.extractLsb'_toNat, Nat.shiftRight_eq_div_pow, tripleNat]
  omega

/-- The 24-bit number of four 6-bit values. -/
def sextetsNat (v : Sextets) : Nat :=
  v.s0.toNat * 262144 + v.s1.toNat * 4096 + v.s2.toNat * 64 + v.s3.toNat

theorem join4_toNat (v : Sextets) :
    (join4 v).b0.toNat = byteOf (sextetsNat v) 2 ∧ (join4 v).b1.toNat = byteOf (sextetsNat v) 1 ∧
      (join4 v).b2.toNat = byteOf (sextetsNat v) 0 := by
  have h0 := v.s0.isLt; have h1 := v.s1.isLt; have h2 := v.s2.isLt; have h3 := v.s3.isLt
  have e0 : (join4 v).b0.toNat = _ := toNat_append_arith v.s0 (v.s1.extractLsb' 4 2)
  have e1 : (join4 v).b1.toNat = _ := toNat_append_arith (v.s1.extractLsb' 0 4) (v.s2.extractLsb' 2 4)
  have e2 : (join4 v).b2.toNat = _ := toNat_append_arith (v.s2.extractLsb' 0 2) v.s3
  rw [e0, e1, e2]
  simp only [BitVec.extractLsb'_toNat, Nat.shiftRight_eq_div_pow, sextetsNat, byteOf]
  omega

/-- Joining the sextets of three bytes gives the bytes back. -/
theorem join4_split3 (t : Triple) : join4 (split3 t) = t := by
  have h0 := t.b0.isLt; have h1 := t.b1.isLt; have h2 := t.b2.isLt
  obtain ⟨e0, e1, e2, e3⟩ := split3_toNat t
  obtain ⟨f0, f1, f2⟩ := join4_toNat (split3 t)
  have hs : sextetsNat (split3 t) = tripleNat t := by
    simp only [sextetsNat, e0, e1, e2, e3, tripleNat]; omega
  rw [hs] at f0 f1 f2
  have : (join4 (split3 t)).b0 = t.b0 ∧ (join4 (split3 t)).b1 = t.b1 ∧ (join4 (split3 t)).b2 = t.b2 := by
    refine ⟨?_, ?_, ?_⟩ <;> apply BitVec.eq_of_toNat_eq <;>
      simp only [f0, f1, f2, byteOf, tripleNat] <;> omega
  cases hj : join4 (split3 t)
  cases t
  simp_all

/-! ### Group encode -/

/-- The characters of an encoded group are those of the arithmetic (R121). -/
theorem encGroup_char (n : Nat) (t : Triple) (hn : n = 1 ∨ n = 2 ∨ n = 3) (j : Fin 4) :
    (charAt (encGroup n t) j).toNat = groupChar n t.b0.toNat t.b1.toNat t.b2.toNat j.val := by
  obtain ⟨e0, e1, e2, e3⟩ := split3_toNat t
  have hx : t.b0.toNat * 65536 + t.b1.toNat * 256 + t.b2.toNat = tripleNat t := rfl
  simp only [groupChar, hx]
  rcases hn with rfl | rfl | rfl <;> fin_cases j <;>
    simp [charAt, encGroup, fwd_toNat, e0, e1, e2, e3, padChar]

/-- An encoded group in a register word (R120). -/
theorem wordOfQuad_encGroup (n : Nat) (t : Triple) (hn : n = 1 ∨ n = 2 ∨ n = 3) :
    wordOfQuad (encGroup n t) = groupWord n t.b0.toNat t.b1.toNat t.b2.toNat := by
  have h := encGroup_char n t hn
  rw [wordOfQuad, packWord_eq, groupWord]
  congr 1
  have h0 := h 0; have h1 := h 1; have h2 := h 2; have h3 := h 3
  simp only [charAt] at h0 h1 h2 h3
  simp [h0, h1, h2, h3]

/-! ### Group check -/

/-- A statement about every position of a group is one about its four positions. -/
theorem forall_position (P : Fin 4 → Prop) : (∀ i, P i) ↔ P 0 ∧ P 1 ∧ P 2 ∧ P 3 := by
  constructor
  · exact fun h => ⟨h 0, h 1, h 2, h 3⟩
  · rintro ⟨h0, h1, h2, h3⟩ i
    fin_cases i <;> assumption

/-- The group check rejects at a position exactly if it is the first illegal one (R143). -/
theorem legal4_illegal_iff (q : Quad) (final : Bool) (pos : Fin 4) :
    legal4 q final = .illegal pos ↔ illegalAt q final pos = true ∧ ∀ j, j < pos → illegalAt q final j = false := by
  rw [legal4, forall_position]
  cases h0 : illegalAt q final 0 <;> cases h1 : illegalAt q final 1 <;> cases h2 : illegalAt q final 2 <;>
    cases h3 : illegalAt q final 3 <;> fin_cases pos <;> simp [h0, h1, h2, h3]

/-- The group check accepts exactly if no position is illegal (R143). -/
theorem legal4_legal_iff (q : Quad) (final : Bool) (pad : Nat) :
    legal4 q final = .legal pad ↔ (∀ i, illegalAt q final i = false) ∧ pad = padCount q final := by
  rw [legal4, forall_position]
  cases illegalAt q final 0 <;> cases illegalAt q final 1 <;> cases illegalAt q final 2 <;>
    cases illegalAt q final 3 <;> simp [eq_comm]

/-- The illegal positions of a group by character codes (R140, R142). -/
theorem illegalAt_eq (q : Quad) (final : Bool) (i : Fin 4) :
    illegalAt q final i = badPosition (fun k => (charAt q k).toNat) final i := by
  have hp : ∀ b : Byte, (b == padChar) = decide (b.toNat = 0x3D) := by decide
  simp only [illegalAt, padAllowed, badPosition, valid_eq_isAlphabet, hp]
  rfl

/-- A legal group has padding 0, 1 or 2, and every character before the padding is of the alphabet. -/
theorem legal4_shape (q : Quad) (final : Bool) (pad : Nat) (h : legal4 q final = .legal pad) :
    pad ≤ 2 ∧ (final = false → pad = 0) ∧ ∀ i : Fin 4, i.val < 4 - pad → valid (charAt q i) = true := by
  obtain ⟨hi, rfl⟩ := (legal4_legal_iff q final pad).1 h
  have h0 := hi 0; have h1 := hi 1; have h2 := hi 2; have h3 := hi 3
  have hpv : ∀ b : Byte, valid b = true → (b == padChar) = false := by decide
  have a2 := hpv q.c2; have a3 := hpv q.c3
  simp only [illegalAt, padAllowed, charAt] at h0 h1 h2 h3
  cases final <;> cases v2 : valid q.c2 <;> cases v3 : valid q.c3 <;> cases e2 : (q.c2 == padChar) <;>
    cases e3 : (q.c3 == padChar) <;>
    simp_all [padCount, forall_position, charAt]

/-- Character i of the group in a word is the word's byte i. -/
theorem charAt_quadOfWord (w : Word) (i : Fin 4) : (charAt (quadOfWord w) i).toNat = byteOf w.toNat i.val := by
  fin_cases i <;> exact lane_toNat _ _

/-- The padding character by its code. -/
theorem eq_padChar_iff (b : Byte) : b = padChar ↔ b.toNat = 0x3D := by
  constructor
  · rintro rfl; rfl
  · intro h; exact BitVec.eq_of_toNat_eq h

theorem beq_padChar (b : Byte) : (b == padChar) = decide (b.toNat = 0x3D) := by
  rw [← decide_eq_decide.2 (eq_padChar_iff b)]; rfl

/-- The STATUS word of a failure by the code of the first illegal character (R144). -/
theorem statusFail_causeOf (b : Byte) : statusFail (causeOf b) = rejectStatus b.toNat := by
  rw [rejectStatus, causeOf]
  by_cases h : b = padChar
  · rw [if_pos h, if_pos ((eq_padChar_iff b).1 h)]; rfl
  · rw [if_neg h, if_neg (fun h' => h ((eq_padChar_iff b).2 h'))]; rfl

/-! ### Group decode -/

theorem decSextet_toNat (p : Platform) (q : Quad) (pad : Nat) (i : Fin 4)
    (h : i.val < 4 - pad → valid (charAt q i) = true) :
    (decSextet p q pad i).toNat = if i.val < 4 - pad then alphabetValue (charAt q i).toNat else 0 := by
  rw [decSextet]
  by_cases h1 : i.val < 4 - pad
  · rw [if_neg (by omega), if_pos h1]
    exact rev_sextet p _ (h h1)
  · rw [if_pos (by omega), if_neg h1]
    rfl

/-- The sextets of an encoded group are the group's, those of the missing bytes being 0. -/
theorem decSextet_encGroup (p : Platform) (n : Nat) (t : Triple) (hn : n = 1 ∨ n = 2 ∨ n = 3)
    (h1 : n < 2 → t.b1 = 0) (h2 : n < 3 → t.b2 = 0) :
    (⟨decSextet p (encGroup n t) (3 - n) 0, decSextet p (encGroup n t) (3 - n) 1,
      decSextet p (encGroup n t) (3 - n) 2, decSextet p (encGroup n t) (3 - n) 3⟩ : Sextets) = split3 t := by
  obtain ⟨-, -, e2, e3⟩ := split3_toNat t
  have s3z : n < 3 → (split3 t).s3 = 0 := by
    intro h
    apply BitVec.eq_of_toNat_eq
    rw [e3, tripleNat, h2 h]
    simp
    omega
  have s2z : n < 2 → (split3 t).s2 = 0 := by
    intro h
    apply BitVec.eq_of_toNat_eq
    rw [e2, tripleNat, h1 h, h2 (by omega)]
    simp
    omega
  rcases hn with rfl | rfl | rfl
  · rw [show split3 t = ⟨(split3 t).s0, (split3 t).s1, 0, 0⟩ by
      conv_lhs => rw [show split3 t = ⟨(split3 t).s0, (split3 t).s1, (split3 t).s2, (split3 t).s3⟩ from rfl,
        s2z (by omega), s3z (by omega)]]
    simp [decSextet, encGroup, charAt, rev_fwd_sextet]
  · rw [show split3 t = ⟨(split3 t).s0, (split3 t).s1, (split3 t).s2, 0⟩ by
      conv_lhs => rw [show split3 t = ⟨(split3 t).s0, (split3 t).s1, (split3 t).s2, (split3 t).s3⟩ from rfl,
        s3z (by omega)]]
    simp [decSextet, encGroup, charAt, rev_fwd_sextet]
  · simp [decSextet, encGroup, charAt, rev_fwd_sextet]

/-- The bytes of a decoded group are those of the arithmetic, the bytes that the padding drops being 0 (R146). -/
theorem decGroup_toNat (p : Platform) (q : Quad) (f : Bool) (pad : Nat) (h : legal4 q f = .legal pad) :
    (decGroup p q pad).b0.toNat = groupOut (charValue q.c0.toNat) (charValue q.c1.toNat) (charValue q.c2.toNat)
      (charValue q.c3.toNat) 0 ∧
    (decGroup p q pad).b1.toNat = (if pad ≤ 1 then groupOut (charValue q.c0.toNat) (charValue q.c1.toNat)
      (charValue q.c2.toNat) (charValue q.c3.toNat) 1 else 0) ∧
    (decGroup p q pad).b2.toNat = (if pad = 0 then groupOut (charValue q.c0.toNat) (charValue q.c1.toNat)
      (charValue q.c2.toNat) (charValue q.c3.toNat) 2 else 0) := by
  obtain ⟨hp, -, hv⟩ := legal4_shape q f pad h
  have hpc := ((legal4_legal_iff q f pad).1 h).2
  have hval : ∀ b : Byte, valid b = true → charValue b.toNat = alphabetValue b.toNat := by decide
  have hz : ∀ i : Fin 4, ¬ i.val < 4 - pad → charValue (charAt q i).toNat = 0 := by
    intro i hi
    have hpp : (charAt q i) = padChar := by
      rw [padCount] at hpc
      split_ifs at hpc with h1 h2
      · simp at h1 h2; have : i = 2 ∨ i = 3 := by omega
        rcases this with rfl | rfl <;> simp [charAt, h1, h2]
      · simp at h1; have : i = 3 := by omega
        subst this; simp [charAt, h1]
      · omega
    rw [hpp]; rfl
  have hs : ∀ i, (decSextet p q pad i).toNat = charValue (charAt q i).toNat := by
    intro i
    rw [decSextet_toNat p q pad i (hv i)]
    split_ifs with h1
    · rw [hval _ (hv i h1)]
    · rw [hz i h1]
  obtain ⟨j0, j1, j2⟩ := join4_toNat
    ⟨decSextet p q pad 0, decSextet p q pad 1, decSextet p q pad 2, decSextet p q pad 3⟩
  simp only [sextetsNat, hs, charAt] at j0 j1 j2
  refine ⟨j0, ?_, ?_⟩
  · simp only [decGroup, groupOut]
    rw [← show byteOf _ 1 = byteOf _ (2-1) from rfl, ← j1]
    split_ifs <;> first | rfl | omega
  · simp only [decGroup, groupOut]
    rw [← show byteOf _ 0 = byteOf _ (2-2) from rfl, ← j2]
    split_ifs <;> first | rfl | omega

/-- Encoding a group and decoding it gives the group back (43_buffer.md R186, one group). -/
theorem decGroup_encGroup (p : Platform) (n : Nat) (t : Triple) (hn : n = 1 ∨ n = 2 ∨ n = 3)
    (h1 : n < 2 → t.b1 = 0) (h2 : n < 3 → t.b2 = 0) : decGroup p (encGroup n t) (3 - n) = t := by
  rw [decGroup, decSextet_encGroup p n t hn h1 h2, join4_split3]
  rcases hn with rfl | rfl | rfl
  · have e1 := h1 (by omega)
    have e2 := h2 (by omega)
    cases t
    simp_all
  · have e2 := h2 (by omega)
    cases t
    simp_all
  · simp

/-- An encoded group is legal as a final group, with the padding of its missing bytes (R121, R142). -/
theorem legal4_encGroup (n : Nat) (t : Triple) (hn : n = 1 ∨ n = 2 ∨ n = 3) :
    legal4 (encGroup n t) true = .legal (3 - n) := by
  have hne : ∀ i : Sextet, (fwd i == padChar) = false := by decide
  rw [legal4_legal_iff]
  rcases hn with rfl | rfl | rfl <;>
    simp [forall_position, illegalAt, padAllowed, charAt, encGroup, padCount, hne]

/-- An encoded group of three bytes is legal as a non-final group. -/
theorem legal4_encGroup_full (t : Triple) : legal4 (encGroup 3 t) false = .legal 0 := by
  rw [legal4_legal_iff]
  simp [forall_position, illegalAt, charAt, encGroup, padCount]

end Sys2Proof.Machine
end

