-- ==== Sys2Proof/Laws/State.lean ====
section
/-! SUPPORT. One lemma per field per update of the state, true by definition, so that no later proof unfolds a record
update. -/

namespace Sys2Proof.Machine

/-! ### `setTemp` -/

@[simp] theorem setTemp_status (k : Nat) (v : Word) (s : State) :
    (setTemp k v s).status = s.status := rfl
@[simp] theorem setTemp_src (k : Nat) (v : Word) (s : State) :
    (setTemp k v s).src = s.src := rfl
@[simp] theorem setTemp_dst (k : Nat) (v : Word) (s : State) :
    (setTemp k v s).dst = s.dst := rfl
@[simp] theorem setTemp_len (k : Nat) (v : Word) (s : State) :
    (setTemp k v s).len = s.len := rfl
@[simp] theorem setTemp_outlen (k : Nat) (v : Word) (s : State) :
    (setTemp k v s).outlen = s.outlen := rfl
@[simp] theorem setTemp_din (k : Nat) (v : Word) (s : State) :
    (setTemp k v s).din = s.din := rfl
@[simp] theorem setTemp_dout (k : Nat) (v : Word) (s : State) :
    (setTemp k v s).dout = s.dout := rfl
@[simp] theorem setTemp_phase (k : Nat) (v : Word) (s : State) :
    (setTemp k v s).phase = s.phase := rfl
@[simp] theorem setTemp_mem (k : Nat) (v : Word) (s : State) :
    (setTemp k v s).mem = s.mem := rfl
@[simp] theorem setTemp_host (k : Nat) (v : Word) (s : State) :
    (setTemp k v s).host = { s.host with temps := sparseSet unwrittenTemp s.host.temps k v } := rfl
@[simp] theorem setTemp_platform (k : Nat) (v : Word) (s : State) :
    (setTemp k v s).platform = s.platform := rfl
@[simp] theorem setTemp_draws (k : Nat) (v : Word) (s : State) :
    (setTemp k v s).draws = s.draws := rfl
@[simp] theorem setTemp_turns (k : Nat) (v : Word) (s : State) :
    (setTemp k v s).turns = s.turns := rfl

/-! ### `spend` -/

@[simp] theorem spend_status (n : Nat) (s : State) :
    (spend n s).status = s.status := rfl
@[simp] theorem spend_src (n : Nat) (s : State) :
    (spend n s).src = s.src := rfl
@[simp] theorem spend_dst (n : Nat) (s : State) :
    (spend n s).dst = s.dst := rfl
@[simp] theorem spend_len (n : Nat) (s : State) :
    (spend n s).len = s.len := rfl
@[simp] theorem spend_outlen (n : Nat) (s : State) :
    (spend n s).outlen = s.outlen := rfl
@[simp] theorem spend_din (n : Nat) (s : State) :
    (spend n s).din = s.din := rfl
@[simp] theorem spend_dout (n : Nat) (s : State) :
    (spend n s).dout = s.dout := rfl
@[simp] theorem spend_phase (n : Nat) (s : State) :
    (spend n s).phase = s.phase := rfl
@[simp] theorem spend_mem (n : Nat) (s : State) :
    (spend n s).mem = s.mem := rfl
@[simp] theorem spend_host (n : Nat) (s : State) :
    (spend n s).host = s.host := rfl
@[simp] theorem spend_platform (n : Nat) (s : State) :
    (spend n s).platform = s.platform := rfl
@[simp] theorem spend_draws (n : Nat) (s : State) :
    (spend n s).draws = s.draws + n := rfl
@[simp] theorem spend_turns (n : Nat) (s : State) :
    (spend n s).turns = s.turns := rfl

/-! ### `storeBytes` -/

@[simp] theorem storeBytes_status (a : Nat) (bs : List Byte) (s : State) :
    (storeBytes a bs s).status = s.status := rfl
@[simp] theorem storeBytes_src (a : Nat) (bs : List Byte) (s : State) :
    (storeBytes a bs s).src = s.src := rfl
@[simp] theorem storeBytes_dst (a : Nat) (bs : List Byte) (s : State) :
    (storeBytes a bs s).dst = s.dst := rfl
@[simp] theorem storeBytes_len (a : Nat) (bs : List Byte) (s : State) :
    (storeBytes a bs s).len = s.len := rfl
@[simp] theorem storeBytes_outlen (a : Nat) (bs : List Byte) (s : State) :
    (storeBytes a bs s).outlen = s.outlen := rfl
@[simp] theorem storeBytes_din (a : Nat) (bs : List Byte) (s : State) :
    (storeBytes a bs s).din = s.din := rfl
@[simp] theorem storeBytes_dout (a : Nat) (bs : List Byte) (s : State) :
    (storeBytes a bs s).dout = s.dout := rfl
@[simp] theorem storeBytes_phase (a : Nat) (bs : List Byte) (s : State) :
    (storeBytes a bs s).phase = s.phase := rfl
@[simp] theorem storeBytes_mem (a : Nat) (bs : List Byte) (s : State) :
    (storeBytes a bs s).mem = writeBytes s.mem a bs := rfl
@[simp] theorem storeBytes_host (a : Nat) (bs : List Byte) (s : State) :
    (storeBytes a bs s).host = s.host := rfl
@[simp] theorem storeBytes_platform (a : Nat) (bs : List Byte) (s : State) :
    (storeBytes a bs s).platform = s.platform := rfl
@[simp] theorem storeBytes_draws (a : Nat) (bs : List Byte) (s : State) :
    (storeBytes a bs s).draws = s.draws := rfl
@[simp] theorem storeBytes_turns (a : Nat) (bs : List Byte) (s : State) :
    (storeBytes a bs s).turns = s.turns := rfl

/-! ### `scramble` -/

@[simp] theorem scramble_status (a n : Nat) (s : State) :
    (scramble a n s).status = s.status := rfl
@[simp] theorem scramble_src (a n : Nat) (s : State) :
    (scramble a n s).src = s.src := rfl
@[simp] theorem scramble_dst (a n : Nat) (s : State) :
    (scramble a n s).dst = s.dst := rfl
@[simp] theorem scramble_len (a n : Nat) (s : State) :
    (scramble a n s).len = s.len := rfl
@[simp] theorem scramble_outlen (a n : Nat) (s : State) :
    (scramble a n s).outlen = s.outlen := rfl
@[simp] theorem scramble_din (a n : Nat) (s : State) :
    (scramble a n s).din = s.din := rfl
@[simp] theorem scramble_dout (a n : Nat) (s : State) :
    (scramble a n s).dout = s.dout := rfl
@[simp] theorem scramble_phase (a n : Nat) (s : State) :
    (scramble a n s).phase = s.phase := rfl
@[simp] theorem scramble_mem (a n : Nat) (s : State) :
    (scramble a n s).mem = writeBytes s.mem a (freeBytes s.draws n) := rfl
@[simp] theorem scramble_host (a n : Nat) (s : State) :
    (scramble a n s).host = s.host := rfl
@[simp] theorem scramble_platform (a n : Nat) (s : State) :
    (scramble a n s).platform = s.platform := rfl
@[simp] theorem scramble_draws (a n : Nat) (s : State) :
    (scramble a n s).draws = s.draws + n := rfl
@[simp] theorem scramble_turns (a n : Nat) (s : State) :
    (scramble a n s).turns = s.turns := rfl

/-! ### `completeOk` -/

@[simp] theorem completeOk_status (n : Nat) (s : State) :
    (completeOk n s).status = statusOk := rfl
@[simp] theorem completeOk_src (n : Nat) (s : State) :
    (completeOk n s).src = s.src := rfl
@[simp] theorem completeOk_dst (n : Nat) (s : State) :
    (completeOk n s).dst = s.dst := rfl
@[simp] theorem completeOk_len (n : Nat) (s : State) :
    (completeOk n s).len = s.len := rfl
@[simp] theorem completeOk_outlen (n : Nat) (s : State) :
    (completeOk n s).outlen = BitVec.ofNat 32 n := rfl
@[simp] theorem completeOk_din (n : Nat) (s : State) :
    (completeOk n s).din = s.din := rfl
@[simp] theorem completeOk_dout (n : Nat) (s : State) :
    (completeOk n s).dout = s.dout := rfl
@[simp] theorem completeOk_phase (n : Nat) (s : State) :
    (completeOk n s).phase = .idle := rfl
@[simp] theorem completeOk_mem (n : Nat) (s : State) :
    (completeOk n s).mem = s.mem := rfl
@[simp] theorem completeOk_host (n : Nat) (s : State) :
    (completeOk n s).host = s.host := rfl
@[simp] theorem completeOk_platform (n : Nat) (s : State) :
    (completeOk n s).platform = s.platform := rfl
@[simp] theorem completeOk_draws (n : Nat) (s : State) :
    (completeOk n s).draws = s.draws := rfl
@[simp] theorem completeOk_turns (n : Nat) (s : State) :
    (completeOk n s).turns = s.turns := rfl

/-! ### `completeFail` -/

@[simp] theorem completeFail_status (c : FailCause) (s : State) :
    (completeFail c s).status = statusFail c := rfl
@[simp] theorem completeFail_src (c : FailCause) (s : State) :
    (completeFail c s).src = s.src := rfl
@[simp] theorem completeFail_dst (c : FailCause) (s : State) :
    (completeFail c s).dst = s.dst := rfl
@[simp] theorem completeFail_len (c : FailCause) (s : State) :
    (completeFail c s).len = s.len := rfl
@[simp] theorem completeFail_outlen (c : FailCause) (s : State) :
    (completeFail c s).outlen = 0 := rfl
@[simp] theorem completeFail_din (c : FailCause) (s : State) :
    (completeFail c s).din = s.din := rfl
@[simp] theorem completeFail_dout (c : FailCause) (s : State) :
    (completeFail c s).dout = s.dout := rfl
@[simp] theorem completeFail_phase (c : FailCause) (s : State) :
    (completeFail c s).phase = .idle := rfl
@[simp] theorem completeFail_mem (c : FailCause) (s : State) :
    (completeFail c s).mem = s.mem := rfl
@[simp] theorem completeFail_host (c : FailCause) (s : State) :
    (completeFail c s).host = s.host := rfl
@[simp] theorem completeFail_platform (c : FailCause) (s : State) :
    (completeFail c s).platform = s.platform := rfl
@[simp] theorem completeFail_draws (c : FailCause) (s : State) :
    (completeFail c s).draws = s.draws := rfl
@[simp] theorem completeFail_turns (c : FailCause) (s : State) :
    (completeFail c s).turns = s.turns := rfl

/-! ### `completePerr` -/

@[simp] theorem completePerr_status (c : PerrCause) (s : State) :
    (completePerr c s).status = statusPerr c := rfl
@[simp] theorem completePerr_src (c : PerrCause) (s : State) :
    (completePerr c s).src = s.src := rfl
@[simp] theorem completePerr_dst (c : PerrCause) (s : State) :
    (completePerr c s).dst = s.dst := rfl
@[simp] theorem completePerr_len (c : PerrCause) (s : State) :
    (completePerr c s).len = s.len := rfl
@[simp] theorem completePerr_outlen (c : PerrCause) (s : State) :
    (completePerr c s).outlen = 0 := rfl
@[simp] theorem completePerr_din (c : PerrCause) (s : State) :
    (completePerr c s).din = s.din := rfl
@[simp] theorem completePerr_dout (c : PerrCause) (s : State) :
    (completePerr c s).dout = s.dout := rfl
@[simp] theorem completePerr_phase (c : PerrCause) (s : State) :
    (completePerr c s).phase = .idle := rfl
@[simp] theorem completePerr_mem (c : PerrCause) (s : State) :
    (completePerr c s).mem = s.mem := rfl
@[simp] theorem completePerr_host (c : PerrCause) (s : State) :
    (completePerr c s).host = s.host := rfl
@[simp] theorem completePerr_platform (c : PerrCause) (s : State) :
    (completePerr c s).platform = s.platform := rfl
@[simp] theorem completePerr_draws (c : PerrCause) (s : State) :
    (completePerr c s).draws = s.draws := rfl
@[simp] theorem completePerr_turns (c : PerrCause) (s : State) :
    (completePerr c s).turns = s.turns := rfl

/-! ### `hang` -/

@[simp] theorem hang_status (l : Latched) (s : State) :
    (hang l s).status = s.status := rfl
@[simp] theorem hang_src (l : Latched) (s : State) :
    (hang l s).src = s.src := rfl
@[simp] theorem hang_dst (l : Latched) (s : State) :
    (hang l s).dst = s.dst := rfl
@[simp] theorem hang_len (l : Latched) (s : State) :
    (hang l s).len = s.len := rfl
@[simp] theorem hang_outlen (l : Latched) (s : State) :
    (hang l s).outlen = s.outlen := rfl
@[simp] theorem hang_din (l : Latched) (s : State) :
    (hang l s).din = s.din := rfl
@[simp] theorem hang_dout (l : Latched) (s : State) :
    (hang l s).dout = s.dout := rfl
@[simp] theorem hang_phase (l : Latched) (s : State) :
    (hang l s).phase = .stuck l := rfl
@[simp] theorem hang_mem (l : Latched) (s : State) :
    (hang l s).mem = s.mem := rfl
@[simp] theorem hang_host (l : Latched) (s : State) :
    (hang l s).host = s.host := rfl
@[simp] theorem hang_platform (l : Latched) (s : State) :
    (hang l s).platform = s.platform := rfl
@[simp] theorem hang_draws (l : Latched) (s : State) :
    (hang l s).draws = s.draws := rfl
@[simp] theorem hang_turns (l : Latched) (s : State) :
    (hang l s).turns = s.turns := rfl

/-! ### `issue` -/

@[simp] theorem issue_status (w : Word) (s : State) :
    (issue w s).status = statusBusy := rfl
@[simp] theorem issue_src (w : Word) (s : State) :
    (issue w s).src = s.src := rfl
@[simp] theorem issue_dst (w : Word) (s : State) :
    (issue w s).dst = s.dst := rfl
@[simp] theorem issue_len (w : Word) (s : State) :
    (issue w s).len = s.len := rfl
@[simp] theorem issue_outlen (w : Word) (s : State) :
    (issue w s).outlen = s.outlen := rfl
@[simp] theorem issue_din (w : Word) (s : State) :
    (issue w s).din = s.din := rfl
@[simp] theorem issue_dout (w : Word) (s : State) :
    (issue w s).dout = s.dout := rfl
@[simp] theorem issue_phase (w : Word) (s : State) :
    (issue w s).phase = .busy (latchOperands w s) := rfl
@[simp] theorem issue_mem (w : Word) (s : State) :
    (issue w s).mem = s.mem := rfl
@[simp] theorem issue_host (w : Word) (s : State) :
    (issue w s).host = s.host := rfl
@[simp] theorem issue_platform (w : Word) (s : State) :
    (issue w s).platform = s.platform := rfl
@[simp] theorem issue_draws (w : Word) (s : State) :
    (issue w s).draws = s.draws := rfl
@[simp] theorem issue_turns (w : Word) (s : State) :
    (issue w s).turns = s.turns := rfl

/-! ### `setDout` -/

@[simp] theorem setDout_status (i : Fin 4) (v : Word) (s : State) :
    (setDout i v s).status = s.status := rfl
@[simp] theorem setDout_src (i : Fin 4) (v : Word) (s : State) :
    (setDout i v s).src = s.src := rfl
@[simp] theorem setDout_dst (i : Fin 4) (v : Word) (s : State) :
    (setDout i v s).dst = s.dst := rfl
@[simp] theorem setDout_len (i : Fin 4) (v : Word) (s : State) :
    (setDout i v s).len = s.len := rfl
@[simp] theorem setDout_outlen (i : Fin 4) (v : Word) (s : State) :
    (setDout i v s).outlen = s.outlen := rfl
@[simp] theorem setDout_din (i : Fin 4) (v : Word) (s : State) :
    (setDout i v s).din = s.din := rfl
@[simp] theorem setDout_dout (i : Fin 4) (v : Word) (s : State) :
    (setDout i v s).dout = s.dout.set i v := rfl
@[simp] theorem setDout_phase (i : Fin 4) (v : Word) (s : State) :
    (setDout i v s).phase = s.phase := rfl
@[simp] theorem setDout_mem (i : Fin 4) (v : Word) (s : State) :
    (setDout i v s).mem = s.mem := rfl
@[simp] theorem setDout_host (i : Fin 4) (v : Word) (s : State) :
    (setDout i v s).host = s.host := rfl
@[simp] theorem setDout_platform (i : Fin 4) (v : Word) (s : State) :
    (setDout i v s).platform = s.platform := rfl
@[simp] theorem setDout_draws (i : Fin 4) (v : Word) (s : State) :
    (setDout i v s).draws = s.draws := rfl
@[simp] theorem setDout_turns (i : Fin 4) (v : Word) (s : State) :
    (setDout i v s).turns = s.turns := rfl

/-! ### `atLine` -/

@[simp] theorem atLine_status (n : Nat) (s : State) :
    (atLine n s).status = s.status := rfl
@[simp] theorem atLine_src (n : Nat) (s : State) :
    (atLine n s).src = s.src := rfl
@[simp] theorem atLine_dst (n : Nat) (s : State) :
    (atLine n s).dst = s.dst := rfl
@[simp] theorem atLine_len (n : Nat) (s : State) :
    (atLine n s).len = s.len := rfl
@[simp] theorem atLine_outlen (n : Nat) (s : State) :
    (atLine n s).outlen = s.outlen := rfl
@[simp] theorem atLine_din (n : Nat) (s : State) :
    (atLine n s).din = s.din := rfl
@[simp] theorem atLine_dout (n : Nat) (s : State) :
    (atLine n s).dout = s.dout := rfl
@[simp] theorem atLine_phase (n : Nat) (s : State) :
    (atLine n s).phase = s.phase := rfl
@[simp] theorem atLine_mem (n : Nat) (s : State) :
    (atLine n s).mem = s.mem := rfl
@[simp] theorem atLine_host (n : Nat) (s : State) :
    (atLine n s).host = { s.host with line := n } := rfl
@[simp] theorem atLine_platform (n : Nat) (s : State) :
    (atLine n s).platform = s.platform := rfl
@[simp] theorem atLine_draws (n : Nat) (s : State) :
    (atLine n s).draws = s.draws := rfl
@[simp] theorem atLine_turns (n : Nat) (s : State) :
    (atLine n s).turns = s.turns := rfl

end Sys2Proof.Machine
end

