-- ==== Sys2Proof/Laws/Memory.lean ====
section
/-! SUPPORT. Sparse lists, memory and host temporaries: read after write, other keys untouched, and the canonical form
kept by every operation. -/

namespace Sys2Proof.Machine

/-- A key that every listed key exceeds reads as unlisted. -/
theorem sparseGet_below {α : Type} {d : α} (l : List (Nat × α)) (a : Nat) (h : ∀ e ∈ l, a < e.1) : sparseGet d l a = d := by
  induction l with
  | nil => rfl
  | cons e rest ih =>
    have := h e (by simp)
    rw [sparseGet, if_neg (by omega)]
    exact ih fun e he => h e (by simp [he])

section Sparse

variable {α : Type} [DecidableEq α] {d : α}

theorem sparseGet_set_ne (l : List (Nat × α)) (a b : Nat) (v : α) (h : b ≠ a) :
    sparseGet d (sparseSet d l a v) b = sparseGet d l b := by
  induction l with
  | nil => by_cases hv : v = d <;> simp [sparseSet, sparseGet, hv]; omega
  | cons e rest ih =>
    obtain ⟨k, w⟩ := e
    rw [sparseSet]
    split_ifs with h1 h2 h3 h4
    · rfl
    · rw [sparseGet, if_neg (by omega)]
    · subst h3; rw [sparseGet, if_neg (by omega)]
    · subst h3; rw [sparseGet, sparseGet, if_neg (by omega), if_neg (by omega)]
    · rw [sparseGet, sparseGet, ih]

theorem sparseGet_set_self (l : List (Nat × α)) (a : Nat) (v : α) (h : sparseWf d l = true) :
    sparseGet d (sparseSet d l a v) a = v := by
  induction l with
  | nil => by_cases hv : v = d <;> simp [sparseSet, sparseGet, hv]
  | cons e rest ih =>
    obtain ⟨k, w⟩ := e
    simp only [sparseWf, Bool.and_eq_true, List.all_eq_true, decide_eq_true_eq] at h
    rw [sparseSet]
    split_ifs with h1 h2 h3 h4
    · rw [sparseGet_below, h2]
      intro e he
      rcases List.mem_cons.1 he with rfl | he
      · exact h1
      · have := h.1.2 e he; omega
    · simp [sparseGet]
    · subst h3; rw [sparseGet_below _ _ h.1.2, h4]
    · simp [sparseGet]
    · rw [sparseGet, if_neg (by omega)]; exact ih h.2

/-- Every entry after a write is an old one or the one written. -/
theorem mem_sparseSet (l : List (Nat × α)) (a : Nat) (v : α) (e : Nat × α) (h : e ∈ sparseSet d l a v) :
    e ∈ l ∨ e = (a, v) := by
  induction l with
  | nil =>
    rw [sparseSet] at h
    split_ifs at h <;> simp_all
  | cons x rest ih =>
    obtain ⟨k, w⟩ := x
    rw [sparseSet] at h
    split_ifs at h <;> simp only [List.mem_cons] at h ⊢ <;> tauto

theorem sparseSet_wf (l : List (Nat × α)) (a : Nat) (v : α) (h : sparseWf d l = true) :
    sparseWf d (sparseSet d l a v) = true := by
  induction l with
  | nil => by_cases hv : v = d <;> simp [sparseSet, sparseWf, hv]
  | cons e rest ih =>
    obtain ⟨k, w⟩ := e
    have h' := h
    simp only [sparseWf, Bool.and_eq_true, List.all_eq_true, decide_eq_true_eq] at h'
    obtain ⟨⟨hw, hk⟩, hr⟩ := h'
    rw [sparseSet]
    split_ifs with h1 h2 h3 h4
    · exact h
    · simp only [sparseWf, List.all_cons, Bool.and_eq_true, List.all_eq_true, decide_eq_true_eq]
      exact ⟨⟨h2, h1, fun e he => by have := hk e he; omega⟩, ⟨hw, hk⟩, hr⟩
    · exact hr
    · subst h3
      simp only [sparseWf, Bool.and_eq_true, List.all_eq_true, decide_eq_true_eq]
      exact ⟨⟨h4, hk⟩, hr⟩
    · simp only [sparseWf, Bool.and_eq_true, List.all_eq_true, decide_eq_true_eq]
      refine ⟨⟨hw, fun e he => ?_⟩, ih hr⟩
      rcases mem_sparseSet _ _ _ _ he with he | rfl
      · exact hk e he
      · simp only; omega

end Sparse

/-! ### Memory -/

theorem readByte_writeByte_self (m : Memory) (a : Nat) (v : Byte) (h : Memory.wf m = true) :
    readByte (writeByte m a v) a = v := by
  simp only [Memory.wf, Bool.and_eq_true] at h
  exact sparseGet_set_self _ _ _ h.1

theorem readByte_writeByte_ne (m : Memory) (a b : Nat) (v : Byte) (h : b ≠ a) :
    readByte (writeByte m a v) b = readByte m b := sparseGet_set_ne _ _ _ _ h

theorem writeByte_wf (m : Memory) (a : Nat) (v : Byte) (h : Memory.wf m = true) (ha : a < Config.memorySize) :
    Memory.wf (writeByte m a v) = true := by
  simp only [Memory.wf, Bool.and_eq_true, List.all_eq_true, decide_eq_true_eq] at h ⊢
  refine ⟨sparseSet_wf _ _ _ h.1, fun e he => ?_⟩
  rcases mem_sparseSet _ _ _ _ he with he | rfl
  · exact h.2 e he
  · exact ha

theorem writeBytes_wf (m : Memory) (a : Nat) (bs : List Byte) (h : Memory.wf m = true)
    (ha : a + bs.length ≤ Config.memorySize) : Memory.wf (writeBytes m a bs) = true := by
  induction bs generalizing m a with
  | nil => exact h
  | cons v rest ih =>
    simp only [List.length_cons] at ha
    exact ih _ _ (writeByte_wf _ _ _ h (by omega)) (by omega)

theorem readByte_writeBytes_out (m : Memory) (a x : Nat) (bs : List Byte) (h : x < a ∨ a + bs.length ≤ x) :
    readByte (writeBytes m a bs) x = readByte m x := by
  induction bs generalizing m a with
  | nil => rfl
  | cons v rest ih =>
    simp only [List.length_cons] at h
    rw [writeBytes, ih _ _ (by omega), readByte_writeByte_ne _ _ _ _ (by omega)]

theorem readByte_writeBytes_in (m : Memory) (a i : Nat) (bs : List Byte) (h : Memory.wf m = true)
    (ha : a + bs.length ≤ Config.memorySize) (hi : i < bs.length) :
    readByte (writeBytes m a bs) (a + i) = bs[i] := by
  induction bs generalizing m a i with
  | nil => simp at hi
  | cons v rest ih =>
    simp only [List.length_cons] at ha hi
    have hw : Memory.wf (writeByte m a v) = true := writeByte_wf _ _ _ h (by omega)
    cases i with
    | zero =>
      rw [writeBytes, readByte_writeBytes_out _ _ _ _ (by omega)]
      exact readByte_writeByte_self _ _ _ h
    | succ i =>
      rw [writeBytes, show a + (i + 1) = a + 1 + i by omega, ih _ _ _ hw (by omega) (by omega)]
      rfl

@[simp] theorem readBytes_length (m : Memory) (a n : Nat) : (readBytes m a n).length = n := by
  induction n generalizing a with
  | zero => rfl
  | succ n ih => simp [readBytes, ih]

theorem readBytes_getElem (m : Memory) (a n i : Nat) (h : i < (readBytes m a n).length) :
    (readBytes m a n)[i] = readByte m (a + i) := by
  induction n generalizing a i with
  | zero => simp [readBytes] at h
  | succ n ih =>
    cases i with
    | zero => rfl
    | succ i =>
      simp only [readBytes, List.getElem_cons_succ]
      rw [ih, show a + 1 + i = a + (i + 1) by omega]

/-- Bytes read from a range depend on that range only. -/
theorem readBytes_congr (m m' : Memory) (a a' n : Nat)
    (h : ∀ i, i < n → readByte m (a + i) = readByte m' (a' + i)) : readBytes m a n = readBytes m' a' n := by
  apply List.ext_getElem
  · simp
  · intro i h1 h2
    rw [readBytes_getElem, readBytes_getElem]
    exact h i (by simpa using h1)

@[simp] theorem freeBytes_length (k n : Nat) : (freeBytes k n).length = n := by
  induction n generalizing k with
  | zero => rfl
  | succ n ih => simp [freeBytes, ih]

theorem freeBytes_getElem (k n i : Nat) (h : i < (freeBytes k n).length) :
    (freeBytes k n)[i] = Config.freeByte (k + i) := by
  induction n generalizing k i with
  | zero => simp [freeBytes] at h
  | succ n ih =>
    cases i with
    | zero => rfl
    | succ i =>
      simp only [freeBytes, List.getElem_cons_succ]
      rw [ih, show k + 1 + i = k + (i + 1) by omega]

/-- A scrambled range reads as free values; everything else reads as before. -/
theorem readByte_scramble_out (a n x : Nat) (s : State) (h : x < a ∨ a + n ≤ x) :
    readByte (scramble a n s).mem x = readByte s.mem x := by
  simpa using readByte_writeBytes_out s.mem a x (freeBytes s.draws n) (by simpa using h)

theorem readByte_scramble_in (a n i : Nat) (s : State) (h : Memory.wf s.mem = true)
    (ha : a + n ≤ Config.memorySize) (hi : i < n) :
    readByte (scramble a n s).mem (a + i) = Config.freeByte (s.draws + i) := by
  rw [scramble_mem, readByte_writeBytes_in _ _ _ _ h (by simpa using ha) (by simpa using hi), freeBytes_getElem]

theorem scramble_wf (a n : Nat) (s : State) (h : Memory.wf s.mem = true) (ha : a + n ≤ Config.memorySize) :
    Memory.wf (scramble a n s).mem = true := writeBytes_wf _ _ _ h (by simpa using ha)

theorem allFrom_iff (test : Nat → Bool) (a n : Nat) :
    allFrom test a n = true ↔ ∀ x, a ≤ x → x < a + n → test x = true := by
  induction n generalizing a with
  | zero => simp only [allFrom, true_iff]; intro x h1 h2; omega
  | succ n ih =>
    simp only [allFrom, Bool.and_eq_true, ih]
    constructor
    · rintro ⟨h0, h⟩ x h1 h2
      rcases Nat.eq_or_lt_of_le h1 with rfl | h1
      · exact h0
      · exact h x h1 (by omega)
    · intro h
      exact ⟨h a (Nat.le_refl a) (by omega), fun x h1 h2 => h x (by omega) (by omega)⟩

/-! ### Host temporaries -/

theorem tempValue_setTemp_self (t : Nat) (v : Word) (s : State) (h : sparseWf unwrittenTemp s.host.temps = true) :
    tempValue (setTemp t v s) t = v := sparseGet_set_self _ _ _ h

theorem tempValue_setTemp_ne (t u : Nat) (v : Word) (s : State) (h : u ≠ t) :
    tempValue (setTemp t v s) u = tempValue s u := sparseGet_set_ne _ _ _ _ h

end Sys2Proof.Machine
end

