-- ==== Sys2Proof/Laws/Text.lean ====
section
/-! SUPPORT. Whole texts: the text ENCODE writes, the verdict of DECODE's data check, and the round trip (43_buffer.md
R175, R180 to R187). -/

namespace Sys2Proof.Machine

@[simp] theorem Quad.chars_length (q : Quad) : q.chars.length = 4 := rfl

@[simp] theorem Triple.bytes_length (t : Triple) : t.bytes.length = 3 := rfl

theorem Quad.chars_getElem (q : Quad) (i : Fin 4) : q.chars[i.val]'(by simp) = charAt q i := by
  fin_cases i <;> rfl

/-! ### The text of a byte sequence -/

/-- The length of the text is EncLen of the length of the input (00_scope.md R10). -/
theorem encodeText_length (bs : List Byte) : (encodeText bs).length = encLen bs.length := by
  induction bs using encodeText.induct with
  | case1 b0 b1 b2 rest ih =>
    simp only [encodeText, List.length_append, ih, Quad.chars_length, List.length_cons, encLen]
    omega
  | case2 b0 b1 => simp [encodeText, encLen]
  | case3 b0 => simp [encodeText, encLen]
  | case4 => simp [encodeText, encLen]

/-- The bytes of group `g` of an input, a missing byte being 0. -/
def inputGroup (bs : List Byte) (g : Nat) : Triple := ⟨bs.getD (3 * g) 0, bs.getD (3 * g + 1) 0, bs.getD (3 * g + 2) 0⟩

/-- Character `j` of group `g` of the text is that of the group's encoding (R175). -/
theorem encodeText_getElem (bs : List Byte) (g : Nat) (j : Fin 4) (h : 4 * g + j.val < (encodeText bs).length) :
    (encodeText bs)[4 * g + j.val] = charAt (encGroup (min 3 (bs.length - 3 * g)) (inputGroup bs g)) j := by
  induction bs using encodeText.induct generalizing g with
  | case1 b0 b1 b2 rest ih =>
    cases g with
    | zero =>
      simp only [encodeText]
      rw [List.getElem_append_left (by simp)]
      have hn : min 3 ((b0 :: b1 :: b2 :: rest).length - 3 * 0) = 3 := by simp only [List.length_cons]; omega
      simp only [Nat.mul_zero, Nat.zero_add]
      refine (Quad.chars_getElem (encGroup 3 ⟨b0, b1, b2⟩) j).trans ?_
      rw [hn]
      rfl
    | succ g =>
      simp only [encodeText, List.length_append, Quad.chars_length] at h
      have hg : 4 * g + j.val < (encodeText rest).length := by omega
      simp only [encodeText]
      rw [List.getElem_append_right (by simp; omega)]
      simp only [Quad.chars_length, show 4 * (g + 1) + j.val - 4 = 4 * g + j.val by omega]
      rw [ih g hg]
      simp only [inputGroup, List.length_cons, show 3 * (g + 1) = 3 * g + 3 by omega,
        show 3 * g + 3 + 1 = (3 * g + 1) + 3 by omega, show 3 * g + 3 + 2 = (3 * g + 2) + 3 by omega,
        List.getD_cons_succ]
      congr 3
      omega
  | case2 b0 b1 =>
    have : g = 0 := by simp [encodeText] at h; omega
    subst this
    have := Quad.chars_getElem (encGroup 2 ⟨b0, b1, 0⟩) j
    simpa [encodeText, inputGroup] using this
  | case3 b0 =>
    have : g = 0 := by simp [encodeText] at h; omega
    subst this
    have := Quad.chars_getElem (encGroup 1 ⟨b0, 0, 0⟩) j
    simpa [encodeText, inputGroup] using this
  | case4 => simp [encodeText] at h

/-- The text of a non-empty input is not empty. -/
theorem encodeText_ne_nil (bs : List Byte) (h : bs ≠ []) : encodeText bs ≠ [] := by
  intro he
  have := encodeText_length bs
  rw [he] at this
  have hl : bs.length ≠ 0 := by simpa using h
  simp only [encLen, List.length_nil] at this
  omega

/-- Decoding the text of a byte sequence gives it back, with the padding of its last group (R186). -/
theorem decodeText_encodeText (p : Platform) (bs : List Byte) (h : bs ≠ []) :
    decodeText p (encodeText bs) = .accepted bs (decMax (encLen bs.length) - bs.length) := by
  induction bs using encodeText.induct with
  | case1 b0 b1 b2 rest ih =>
    have hd := decGroup_encGroup p 3 ⟨b0, b1, b2⟩ (by omega) (by omega) (by omega)
    have hq : (⟨(encGroup 3 ⟨b0, b1, b2⟩).c0, (encGroup 3 ⟨b0, b1, b2⟩).c1, (encGroup 3 ⟨b0, b1, b2⟩).c2,
      (encGroup 3 ⟨b0, b1, b2⟩).c3⟩ : Quad) = encGroup 3 ⟨b0, b1, b2⟩ := rfl
    simp only [encodeText, Quad.chars, List.cons_append, List.nil_append, decodeText, hq]
    by_cases hr : rest = []
    · subst hr
      have hl := legal4_encGroup 3 ⟨b0, b1, b2⟩ (by omega)
      simp only [Nat.sub_self] at hl hd
      simp [encodeText, hl, realBytes, hd, Triple.bytes, encLen, decMax]
    · have he := encodeText_ne_nil rest hr
      have hl := legal4_encGroup_full ⟨b0, b1, b2⟩
      simp only [Nat.sub_self] at hd
      have hf : (encodeText rest).isEmpty = false := by simpa using he
      simp only [hf, hl, Bool.false_eq_true, if_false, ih hr, Verdict.after, realBytes, hd]
      simp only [Triple.bytes, List.length_cons, Verdict.accepted.injEq]
      refine ⟨rfl, ?_⟩
      simp only [encLen, decMax]
      omega
  | case2 b0 b1 =>
    have hd := decGroup_encGroup p 2 ⟨b0, b1, 0⟩ (by omega) (by simp) (by simp)
    have hl := legal4_encGroup 2 ⟨b0, b1, 0⟩ (by omega)
    have hq : (⟨(encGroup 2 ⟨b0, b1, 0⟩).c0, (encGroup 2 ⟨b0, b1, 0⟩).c1, (encGroup 2 ⟨b0, b1, 0⟩).c2,
      (encGroup 2 ⟨b0, b1, 0⟩).c3⟩ : Quad) = encGroup 2 ⟨b0, b1, 0⟩ := rfl
    simp only [encodeText, Quad.chars, decodeText, hq, List.isEmpty_nil, hl, if_true, realBytes, hd]
    simp [Triple.bytes, encLen, decMax]
  | case3 b0 =>
    have hd := decGroup_encGroup p 1 ⟨b0, 0, 0⟩ (by omega) (by simp) (by simp)
    have hl := legal4_encGroup 1 ⟨b0, 0, 0⟩ (by omega)
    have hq : (⟨(encGroup 1 ⟨b0, 0, 0⟩).c0, (encGroup 1 ⟨b0, 0, 0⟩).c1, (encGroup 1 ⟨b0, 0, 0⟩).c2,
      (encGroup 1 ⟨b0, 0, 0⟩).c3⟩ : Quad) = encGroup 1 ⟨b0, 0, 0⟩ := rfl
    simp only [encodeText, Quad.chars, decodeText, hq, List.isEmpty_nil, hl, if_true, realBytes, hd]
    simp [Triple.bytes, encLen, decMax]
  | case4 => exact absurd rfl h

/-! ### The verdict on a text -/

/-- Group `g` of a text. -/
def textGroup (t : List Byte) (g : Nat) : Quad :=
  ⟨t.getD (4 * g) 0, t.getD (4 * g + 1) 0, t.getD (4 * g + 2) 0, t.getD (4 * g + 3) 0⟩

/-- A rejected text: the position is the first illegal one of the first illegal group, the last group alone being final
(R180). -/
theorem decodeText_rejected (p : Platform) (t : List Byte) (pos : Nat) (c : FailCause)
    (h : decodeText p t = .rejected pos c) :
    ∃ (g : Nat) (i : Fin 4), pos = 4 * g + i.val ∧ 4 * g + 4 ≤ t.length ∧
      legal4 (textGroup t g) (decide (4 * g + 4 = t.length)) = .illegal i ∧ c = causeOf (charAt (textGroup t g) i) ∧
      ∀ g', g' < g → ∃ pad, legal4 (textGroup t g') false = .legal pad := by
  induction t using decodeText.induct generalizing pos with
  | case1 c0 c1 c2 c3 rest pos' hl =>
    rw [decodeText, hl] at h
    simp only [Verdict.rejected.injEq] at h
    obtain ⟨rfl, rfl⟩ := h
    refine ⟨0, pos', by simp, by simp, ?_, rfl, by omega⟩
    have : (decide (4 * 0 + 4 = (c0 :: c1 :: c2 :: c3 :: rest).length)) = rest.isEmpty := by
      cases rest <;> simp
    rw [this]
    exact hl
  | case2 c0 c1 c2 c3 rest pad hl he =>
    rw [decodeText, hl] at h
    simp [he] at h
  | case3 c0 c1 c2 c3 rest pad hl he ih =>
    rw [decodeText, hl] at h
    simp only [he] at h
    cases hv : decodeText p rest with
    | accepted bs pad' => rw [hv] at h; simp [Verdict.after] at h
    | rejected pos' c' =>
      rw [hv] at h
      simp only [Verdict.after, Bool.false_eq_true, if_false, Verdict.rejected.injEq] at h
      obtain ⟨rfl, rfl⟩ := h
      obtain ⟨g, i, rfl, hlen, hleg, hc, hall⟩ := ih pos' hv
      have hne : rest.isEmpty = false := by simpa using he
      have hsh : ∀ k, textGroup (c0 :: c1 :: c2 :: c3 :: rest) (k + 1) = textGroup rest k := by
        intro k
        simp [textGroup, show 4 * (k + 1) = 4 * k + 1 + 1 + 1 + 1 by omega]
      refine ⟨g + 1, i, by omega, by simp; omega, ?_, by rw [hsh]; exact hc, ?_⟩
      · rw [hsh]
        convert hleg using 2
        simp
        omega
      · intro g' hg'
        cases g' with
        | zero => exact ⟨pad, by rw [hne] at hl; exact hl⟩
        | succ g' => rw [hsh]; exact hall g' (by omega)
  | case4 t ht => rw [decodeText] at h; · simp at h
                  · exact ht

/-- An accepted text of a length DECODE takes: every group is legal, the last group alone being final, the padding is
that of the last group, and the bytes are the groups' (R180). -/
theorem decodeText_accepted (p : Platform) (t : List Byte) (bytes : List Byte) (pad : Nat)
    (h : decodeText p t = .accepted bytes pad) (hlen : t.length % 4 = 0) (hpos : t.length ≠ 0) :
    (∀ g, 4 * g + 4 < t.length → legal4 (textGroup t g) false = .legal 0) ∧
      legal4 (textGroup t (t.length / 4 - 1)) true = .legal pad ∧
      bytes.length = decMax t.length - pad ∧
      ∀ (g j : Nat) (hj : j < 3) (hk : 3 * g + j < bytes.length),
        bytes[3 * g + j] = (decGroup p (textGroup t g) (if 4 * g + 4 = t.length then pad else 0)).bytes[j]'(by simpa) := by
  induction t using decodeText.induct generalizing bytes with
  | case1 c0 c1 c2 c3 rest pos' hl =>
    rw [decodeText, hl] at h
    simp at h
  | case2 c0 c1 c2 c3 rest pad' hl he =>
    rw [decodeText, hl] at h
    have hnil : rest = [] := by simpa using he
    subst hnil
    simp only [List.isEmpty_nil, if_true, Verdict.accepted.injEq] at h
    obtain ⟨rfl, rfl⟩ := h
    have hp := (legal4_shape _ _ _ hl).1
    refine ⟨by intro g hg; simp at hg, by simpa [textGroup] using hl, by simp [realBytes, decMax], ?_⟩
    intro g j hj hk
    have hg : g = 0 := by simp [realBytes] at hk; omega
    subst hg
    simp [realBytes, textGroup]
  | case3 c0 c1 c2 c3 rest pad' hl he ih =>
    rw [decodeText, hl] at h
    simp only [he] at h
    have hne : rest.isEmpty = false := by simpa using he
    have hrl : rest.length ≠ 0 := by simpa using hne
    rw [hne] at hl
    cases hv : decodeText p rest with
    | rejected pos' c' => rw [hv] at h; simp [Verdict.after] at h
    | accepted bs pad'' =>
      rw [hv] at h
      simp only [Verdict.after, Bool.false_eq_true, if_false, Verdict.accepted.injEq] at h
      obtain ⟨rfl, rfl⟩ := h
      have hp0 : pad' = 0 := (legal4_shape _ _ _ hl).2.1 rfl
      subst hp0
      simp only [List.length_cons] at hlen
      obtain ⟨h1, h2, h3, h4⟩ := ih bs hv (by omega) hrl
      have hsh : ∀ k, textGroup (c0 :: c1 :: c2 :: c3 :: rest) (k + 1) = textGroup rest k := by
        intro k
        simp [textGroup, show 4 * (k + 1) = 4 * k + 1 + 1 + 1 + 1 by omega]
      have hp2 := (legal4_shape _ _ _ h2).1
      have hrb : (realBytes p ⟨c0, c1, c2, c3⟩ 0).length = 3 := by simp [realBytes]
      refine ⟨?_, ?_, ?_, ?_⟩
      · intro g hg
        cases g with
        | zero => exact hl
        | succ g => rw [hsh]; exact h1 g (by simp at hg; omega)
      · rw [show (c0 :: c1 :: c2 :: c3 :: rest).length / 4 - 1 = (rest.length / 4 - 1) + 1 by simp; omega, hsh]
        exact h2
      · simp only [List.length_append, hrb, h3, List.length_cons, decMax] at *
        omega
      · intro g j hj hk
        cases g with
        | zero =>
          rw [List.getElem_append_left (by rw [hrb]; omega)]
          have : rest ≠ [] := by simpa using hne
          simp [realBytes, textGroup, this]
        | succ g =>
          rw [List.getElem_append_right (by rw [hrb]; omega)]
          simp only [List.length_append, hrb] at hk
          have := h4 g j hj (by omega)
          simp only [hrb, show 3 * (g + 1) + j - 3 = 3 * g + j by omega, this, hsh]
          have he : (4 * (g + 1) + 4 = (c0 :: c1 :: c2 :: c3 :: rest).length) ↔ (4 * g + 4 = rest.length) := by
            simp only [List.length_cons]; omega
          simp only [he]
  | case4 t ht =>
    exfalso
    match t, ht with
    | [], _ => simp at hpos
    | [_], _ => simp at hlen
    | [_, _], _ => simp at hlen
    | [_, _, _], _ => simp at hlen
    | a :: b :: c :: d :: r, ht => exact ht a b c d r rfl

/-! ### Texts in memory -/

/-- Character `i` of group `g` of a text read from memory is the byte at its offset. -/
theorem charAt_textGroup (s : State) (a n g : Nat) (i : Fin 4) (h : 4 * g + i.val < n) :
    (charAt (textGroup (readBytes s.mem a n) g) i).toNat = byteAt s a (4 * g + i.val) := by
  have hg : ∀ k, k < n → ((readBytes s.mem a n).getD k 0).toNat = byteAt s a k := by
    intro k h
    rw [List.getD_eq_getElem _ _ (by simpa using h), readBytes_getElem]; rfl
  fin_cases i
  · exact hg (4 * g) h
  · exact hg (4 * g + 1) h
  · exact hg (4 * g + 2) h
  · exact hg (4 * g + 3) h

/-- A position of a group is illegal exactly if the position of the whole text is (R180, R181). -/
theorem illegalAt_textGroup (s : State) (a n g : Nat) (hn : n % 4 = 0) (hg : 4 * g + 4 ≤ n) (i : Fin 4) :
    illegalAt (textGroup (readBytes s.mem a n) g) (decide (4 * g + 4 = n)) i =
      badTextPosition (byteAt s a) n (4 * g + i.val) := by
  rw [illegalAt_eq, badPosition, badTextPosition]
  rw [charAt_textGroup s a n g i (by omega), charAt_textGroup s a n g 3 (by simp; omega)]
  by_cases hf : 4 * g + 4 = n
  · subst hf
    simp
    fin_cases i <;> simp
  · have h1 : ¬ (4 * g + i.val + 1 = n) := by omega
    have h2 : ¬ (4 * g + i.val + 2 = n) := by omega
    simp [hf, h1, h2]

/-- An accepted text in memory: no position is illegal, and the padding and the bytes are those of the arithmetic. -/
theorem decodeText_accepted_memory (s : State) (a n : Nat) (hn : n % 4 = 0) (hp : 0 < n) (p : Platform)
    (bytes : List Byte) (pad : Nat) (h : decodeText p (readBytes s.mem a n) = .accepted bytes pad) :
    (∀ k, k < n → badTextPosition (byteAt s a) n k = false) ∧ pad = textPad (byteAt s a) n ∧ pad ≤ 2 ∧
      bytes.length = 3 * (n / 4) - pad ∧
      ∀ g j, j < 3 → (hk : 3 * g + j < bytes.length) →
        bytes[3 * g + j].toNat = groupOut (charValue (byteAt s a (4 * g))) (charValue (byteAt s a (4 * g + 1)))
          (charValue (byteAt s a (4 * g + 2))) (charValue (byteAt s a (4 * g + 3))) j := by
  have hlen : (readBytes s.mem a n).length = n := by simp
  obtain ⟨a1, a2, a3, a4⟩ := decodeText_accepted _ _ _ _ h (by rw [hlen]; omega) (by rw [hlen]; omega)
  rw [hlen] at a1 a2 a3
  have hp2 := (legal4_shape _ _ _ a2).1
  refine ⟨?_, ?_, hp2, a3, ?_⟩
  · intro k hk
    have := illegalAt_textGroup s a n (k/4) hn (by omega) ⟨k % 4, by omega⟩
    simp only [show 4 * (k/4) + k % 4 = k by omega] at this
    rw [← this]
    by_cases hf : 4 * (k/4) + 4 = n
    · rw [show n / 4 - 1 = k / 4 by omega] at a2
      rw [decide_eq_true hf]
      exact ((legal4_legal_iff _ _ _).1 a2).1 ⟨k % 4, by omega⟩
    · rw [decide_eq_false hf]
      exact ((legal4_legal_iff _ _ _).1 (a1 (k/4) (by omega))).1 ⟨k % 4, by omega⟩
  · have := ((legal4_legal_iff _ _ _).1 a2).2
    rw [this, padCount, textPad, beq_padChar, beq_padChar]
    have e2 := charAt_textGroup s a n (n/4-1) 2 (by simp; omega)
    have e3 := charAt_textGroup s a n (n/4-1) 3 (by simp; omega)
    simp only [charAt] at e2 e3
    rw [e2, e3]
    have q2 : 4 * (n/4 - 1) + (2 : Fin 4).val = n - 2 := by simp; omega
    have q3 : 4 * (n/4 - 1) + (3 : Fin 4).val = n - 1 := by simp; omega
    rw [q2, q3]
    simp
  · intro g j hj hk
    rw [a4 g j hj hk]
    rw [a3, decMax] at hk
    have hgn : 4 * g + 4 ≤ n := by omega
    have hleg : ∃ f q, legal4 (textGroup (readBytes s.mem a n) g) f = .legal q ∧ q = (if 4 * g + 4 = (readBytes s.mem a n).length then pad else 0) := by
      rw [hlen]
      by_cases hf : 4 * g + 4 = n
      · rw [show n / 4 - 1 = g by omega] at a2
        exact ⟨_, _, a2, by rw [if_pos hf]⟩
      · exact ⟨_, _, a1 g (by omega), by rw [if_neg hf]⟩
    obtain ⟨f, q, hl, hq⟩ := hleg
    subst hq
    have hqj : j < 3 - (if 4 * g + 4 = (readBytes s.mem a n).length then pad else 0) := by
      rw [hlen]; split_ifs <;> omega
    have := decGroup_toNat p _ f _ hl
    have c0 := charAt_textGroup s a n g 0 (by simp; omega)
    have c1 := charAt_textGroup s a n g 1 (by simp; omega)
    have c2 := charAt_textGroup s a n g 2 (by simp; omega)
    have c3 := charAt_textGroup s a n g 3 (by simp; omega)
    simp only [charAt] at c0 c1 c2 c3
    rw [c0, c1, c2, c3] at this
    simp only [Fin.val_zero, Nat.add_zero] at this
    obtain ⟨t0, t1, t2⟩ := this
    have : j = 0 ∨ j = 1 ∨ j = 2 := by omega
    rcases this with rfl | rfl | rfl
    · simp only [Triple.bytes]; exact t0
    · replace t1 := t1.trans (if_pos (by omega)); simp only [Triple.bytes]; exact t1
    · replace t2 := t2.trans (if_pos (by omega)); simp only [Triple.bytes]; exact t2


end Sys2Proof.Machine
end

