-- ==== Sys2Proof/Laws/Exec.lean ====
section
/-! SUPPORT. What the shared operations of the meanings can do, each said once: the latched operands, the checks before a
data phase, the data phase of DECODE, reset, and what no operation changes. -/

namespace Sys2Proof.Machine

/-! ### The latched operands -/

theorem onCommand_busy {s : State} {l : Latched} (h : s.phase = .busy l) (run : Latched → Out) :
    onCommand s run = run l := by rw [onCommand, h]

theorem onCommand_stuck {s : State} {l : Latched} (h : s.phase = .stuck l) (run : Latched → Out) :
    onCommand s run = .next s := by rw [onCommand, h]

theorem onCommand_idle {s : State} (h : s.phase = .idle) (run : Latched → Out) :
    onCommand s run = .fault .noCommand := by rw [onCommand, h]

/-- An operation that answers a next state ran on the latched operands, or the Engine is stuck and nothing happened. -/
theorem onCommand_next {s t : State} {run : Latched → Out} (h : onCommand s run = .next t) :
    (∃ l, s.phase = .busy l ∧ run l = .next t) ∨ (∃ l, s.phase = .stuck l ∧ t = s) := by
  cases hp : s.phase with
  | idle => rw [onCommand_idle hp] at h; cases h
  | busy l => rw [onCommand_busy hp] at h; exact .inl ⟨l, rfl, h⟩
  | stuck l => rw [onCommand_stuck hp] at h; cases h; exact .inr ⟨l, rfl, rfl⟩

/-! ### The checks before a data phase -/

/-- The range checks pass exactly if the ranges are in the space and do not meet. -/
theorem rangeCheck_eq_none (j : Job) : rangeCheck j = none ↔ rangesClear j := by
  rw [rangeCheck, rangesClear]
  simp only [Config.memorySize]
  split_ifs <;> simp <;> omega

/-- The checks end in a programmer error, in a refusal by the platform, or pass. -/
theorem dataPhase_cases (s : State) (j : Job) (run : Out) :
    (∃ c, rangeCheck j = some c ∧ dataPhase s j run = .next (completePerr c s)) ∨
    (∃ r, rangeCheck j = none ∧ platformRefusal s.platform j = some r ∧ dataPhase s j run = .refused r) ∨
    (rangeCheck j = none ∧ platformRefusal s.platform j = none ∧ dataPhase s j run = run) := by
  rw [dataPhase]
  cases rangeCheck j with
  | some c => exact .inl ⟨c, rfl, rfl⟩
  | none =>
    cases hp : platformRefusal s.platform j with
    | some r => exact .inr (.inl ⟨r, rfl, rfl, rfl⟩)
    | none => exact .inr (.inr ⟨rfl, rfl, rfl⟩)

/-- A refusal by the platform is for the register block or for a location with side effects. -/
theorem platformRefusal_some (p : Platform) (j : Job) (r : Refusal) (h : platformRefusal p j = some r) :
    r = .registerBlockOverlap ∨ r = .sideEffectLocation := by
  rw [platformRefusal] at h
  split_ifs at h <;> simp_all

/-! ### The data phase of DECODE -/

/-- A rejected DECODE is stuck, or completes with the destination scrambled. -/
theorem rejectDecode_cases (l : Latched) (j : Job) (pos : Nat) (c : FailCause) (s : State) :
    rejectDecode l j pos c s = hang l (spend 1 s) ∨
      rejectDecode l j pos c s = completeFail c (scramble j.dst j.outMax (spend 1 s)) := by
  rw [rejectDecode]
  split_ifs
  · exact .inr rfl
  · exact .inl rfl

/-- An accepted DECODE is stuck, or completes with the bytes stored and the rest of the destination scrambled. -/
theorem acceptDecode_cases (l : Latched) (j : Job) (bytes : List Byte) (pad : Nat) (s : State) :
    acceptDecode l j bytes pad s = hang l (spend 1 s) ∨
      acceptDecode l j bytes pad s = completeOk (j.outMax - pad)
        (scramble (j.dst + (j.outMax - pad)) pad (spend 1 (storeBytes j.dst bytes s))) := by
  rw [acceptDecode]
  split_ifs
  · exact .inr rfl
  · exact .inl rfl

/-- A command is stuck where the platform does not back an access it surely makes (20_memory.md R58). -/
theorem accessesDone_unbacked (s : State) (sure may : Bool) (h : sure = false) : accessesDone sure may s = false := by
  simp [accessesDone, h]

/-- A rejected DECODE is stuck where a character up to the end of its failing group is not backed. -/
theorem rejectDecode_unbacked (l : Latched) (j : Job) (pos : Nat) (c : FailCause) (s : State) (a : Nat)
    (h1 : j.src ≤ a) (h2 : a < j.src + 4 * (pos / 4 + 1)) (ha : admitsRead s.platform a = false) :
    rejectDecode l j pos c s = hang l (spend 1 s) := by
  have hs : allFrom (admitsRead s.platform) j.src (4 * (pos / 4 + 1)) = false := by
    rw [← Bool.not_eq_true, allFrom_iff]
    intro h
    rw [h a h1 h2] at ha
    cases ha
  simp only [rejectDecode, accessesDone_unbacked s _ _ hs, Bool.false_eq_true, if_false]

/-- An accepted DECODE is stuck where a character, or a destination byte before the padding, is not backed. -/
theorem acceptDecode_unbacked (l : Latched) (j : Job) (bytes : List Byte) (pad : Nat) (s : State) (a : Nat)
    (h : (j.src ≤ a ∧ a < j.src + j.len ∧ admitsRead s.platform a = false) ∨
      (j.dst ≤ a ∧ a < j.dst + (j.outMax - pad) ∧ admitsWrite s.platform a = false)) :
    acceptDecode l j bytes pad s = hang l (spend 1 s) := by
  have hs : (allFrom (admitsRead s.platform) j.src j.len &&
      allFrom (admitsWrite s.platform) j.dst (j.outMax - pad)) = false := by
    rw [← Bool.not_eq_true, Bool.and_eq_true, allFrom_iff, allFrom_iff]
    rintro ⟨hr, hw⟩
    rcases h with ⟨h1, h2, ha⟩ | ⟨h1, h2, ha⟩
    · rw [hr a h1 h2] at ha; cases ha
    · rw [hw a h1 h2] at ha; cases ha
  simp only [acceptDecode, accessesDone_unbacked s _ _ hs, Bool.false_eq_true, if_false]

/-- The accesses of a command whose ranges the platform backs are all made. -/
theorem accessesDone_backed (s : State) (sure may : Bool) (h1 : sure = true) (h2 : may = true) :
    accessesDone sure may s = true := by simp [accessesDone, h1, h2]

/-- A rejected DECODE whose ranges the platform backs completes. -/
theorem rejectDecode_backed (l : Latched) (j : Job) (pos : Nat) (c : FailCause) (s : State)
    (h : rangesBacked s.platform j) (hpos : 4 * (pos / 4 + 1) ≤ j.len) :
    rejectDecode l j pos c s = completeFail c (scramble j.dst j.outMax (spend 1 s)) := by
  obtain ⟨-, hr, hw⟩ := h
  rw [rejectDecode]
  rw [if_pos]
  apply accessesDone_backed
  · exact (allFrom_iff _ _ _).2 fun x h1 h2 => hr x h1 (by omega)
  · rw [Bool.and_eq_true, allFrom_iff, allFrom_iff]
    exact ⟨fun x h1 h2 => hr x (by omega) (by omega), hw⟩

/-- An accepted DECODE whose ranges the platform backs completes. -/
theorem acceptDecode_backed (l : Latched) (j : Job) (bytes : List Byte) (pad : Nat) (s : State)
    (h : rangesBacked s.platform j) (hpad : pad ≤ j.outMax) :
    acceptDecode l j bytes pad s = completeOk (j.outMax - pad)
      (scramble (j.dst + (j.outMax - pad)) pad (spend 1 (storeBytes j.dst bytes s))) := by
  obtain ⟨-, hr, hw⟩ := h
  rw [acceptDecode, if_pos]
  apply accessesDone_backed
  · rw [Bool.and_eq_true, allFrom_iff, allFrom_iff]
    exact ⟨hr, fun x h1 h2 => hw x h1 (by omega)⟩
  · exact (allFrom_iff _ _ _).2 fun x h1 h2 => hw x (by omega) (by omega)

/-- The data phase of DECODE is stuck, rejects the text, or accepts it. -/
theorem decodeData_cases (l : Latched) (j : Job) (s : State) :
    decodeData l j s = hang l (spend 1 s) ∨
    (∃ pos c, decodeText s.platform (readBytes s.mem j.src j.len) = .rejected pos c ∧
      decodeData l j s = completeFail c (scramble j.dst j.outMax (spend 1 s))) ∨
    (∃ bytes pad, decodeText s.platform (readBytes s.mem j.src j.len) = .accepted bytes pad ∧
      decodeData l j s = completeOk (j.outMax - pad)
        (scramble (j.dst + (j.outMax - pad)) pad (spend 1 (storeBytes j.dst bytes s)))) := by
  rw [decodeData]
  cases h : decodeText s.platform (readBytes s.mem j.src j.len) with
  | rejected pos c =>
    rcases rejectDecode_cases l j pos c s with h' | h'
    · exact .inl h'
    · exact .inr (.inl ⟨pos, c, rfl, h'⟩)
  | accepted b p =>
    rcases acceptDecode_cases l j b p s with h' | h'
    · exact .inl h'
    · exact .inr (.inr ⟨b, p, rfl, h'⟩)

/-! ### The buffer commands -/

/-- A length DECODE accepts is a positive multiple of 4 (43_buffer.md R180). -/
theorem badDecodeLength_eq_false (n : Nat) : badDecodeLength n = false ↔ n ≠ 0 ∧ n % 4 = 0 := by
  simp [badDecodeLength]

/-- A running ENCODE ends in a programmer error, is refused by the platform, is stuck, or writes the text. -/
theorem execEncode_cases (s : State) (l : Latched) (hp : s.phase = .busy l) :
    (∃ c, execEncode s = .next (completePerr c s)) ∨
    (∃ r, platformRefusal s.platform (encodeJob l) = some r ∧ execEncode s = .refused r) ∨
    execEncode s = .next (hang l s) ∨
    (l.len ≠ 0 ∧ rangeCheck (encodeJob l) = none ∧ platformRefusal s.platform (encodeJob l) = none ∧
      execEncode s = .next (completeOk (encodeJob l).outMax
        (storeBytes (encodeJob l).dst (encodeText (readBytes s.mem (encodeJob l).src (encodeJob l).len)) s))) := by
  rw [execEncode, onCommand_busy hp]
  simp only
  split_ifs with h0 h1
  · exact .inl ⟨_, rfl⟩
  · rcases dataPhase_cases s (encodeJob l) (.next (completeOk (encodeJob l).outMax
      (storeBytes (encodeJob l).dst (encodeText (readBytes s.mem (encodeJob l).src (encodeJob l).len)) s)))
      with ⟨c, -, h⟩ | ⟨r, -, h, h'⟩ | ⟨h, h', h''⟩
    · exact .inl ⟨c, h⟩
    · exact .inr (.inl ⟨r, h, h'⟩)
    · exact .inr (.inr (.inr ⟨h0, h, h', h''⟩))
  · rcases dataPhase_cases s (encodeJob l) (.next (hang l s)) with ⟨c, -, h⟩ | ⟨r, -, h, h'⟩ | ⟨h, h', h''⟩
    · exact .inl ⟨c, h⟩
    · exact .inr (.inl ⟨r, h, h'⟩)
    · exact .inr (.inr (.inl h''))

/-- A running DECODE fails for its length, ends in a programmer error, is refused by the platform, or reaches its data
phase. -/
theorem execDecode_cases (s : State) (l : Latched) (hp : s.phase = .busy l) :
    (badDecodeLength l.len.toNat = true ∧ execDecode s = .next (completeFail .malformedPadding s)) ∨
    (∃ c, execDecode s = .next (completePerr c s)) ∨
    (∃ r, platformRefusal s.platform (decodeJob l) = some r ∧ execDecode s = .refused r) ∨
    (badDecodeLength l.len.toNat = false ∧ rangeCheck (decodeJob l) = none ∧
      platformRefusal s.platform (decodeJob l) = none ∧ execDecode s = .next (decodeData l (decodeJob l) s)) := by
  rw [execDecode, onCommand_busy hp]
  by_cases hb : badDecodeLength l.len.toNat = true
  · rw [if_pos hb]; exact .inl ⟨hb, rfl⟩
  rw [if_neg hb]
  rcases dataPhase_cases s (decodeJob l) (.next (decodeData l (decodeJob l) s))
    with ⟨c, -, h⟩ | ⟨r, -, h, h'⟩ | ⟨h, h', h''⟩
  · exact .inr (.inl ⟨c, h⟩)
  · exact .inr (.inr (.inl ⟨r, h, h'⟩))
  · exact .inr (.inr (.inr ⟨by simpa using hb, h, h', h''⟩))

/-! ### STATUS words -/

theorem fail_flag_fail (c : FailCause) : failFlag (statusFail c) = true := by cases c <;> rfl

theorem perr_flag_fail (c : FailCause) : perrFlag (statusFail c) = false := by cases c <;> rfl

theorem fail_flag_perr (c : PerrCause) : failFlag (statusPerr c) = false := by cases c <;> rfl

theorem perr_flag_perr (c : PerrCause) : perrFlag (statusPerr c) = true := by cases c <;> rfl

theorem flags_ok : failFlag statusOk = false ∧ perrFlag statusOk = false := ⟨rfl, rfl⟩

/-! ### Reset and progress -/

/-- Reset writes at most the destination of the abandoned buffer command (70_reset_and_hazards.md R243). -/
theorem resetEngine_mem (s : State) (a : Nat) (h : ∀ j, activeJob s = some j → inDest j a = false) :
    readByte (resetEngine s).mem a = readByte s.mem a := by
  have e : (resetEngine s).mem = (abandonBuffers s).mem := rfl
  rw [e, abandonBuffers]
  cases hj : activeJob s with
  | none => rfl
  | some j =>
    apply readByte_scramble_out
    have := h j hj
    simp only [inDest, Bool.and_eq_false_iff, decide_eq_false_iff_not] at this
    omega

/-- An access between issue and completion leaves the state alone, or writes one destination byte and moves the progress
position on (10_state.md R35). -/
theorem engineAccess_cases (s : State) : engineAccess s = s ∨
    ∃ l j, s.phase = .busy l ∧ lengthOkJob l = some j ∧ rangeCheck j = none ∧ l.progress < j.outMax ∧
      engineAccess s =
        { scramble (j.dst + l.progress) 1 s with phase := .busy { l with progress := l.progress + 1 } } := by
  rw [engineAccess]
  cases hp : s.phase with
  | idle => exact .inl rfl
  | stuck l => exact .inl rfl
  | busy l =>
    cases hj : lengthOkJob l with
    | none => simp [hj]
    | some j =>
      simp only [hj]
      split_ifs with h
      · exact .inr ⟨l, j, rfl, hj, h.1, h.2.2.1, rfl⟩
      · exact .inl rfl

/-- The job of a command whose length passes its check is the job of the command. -/
theorem jobOf_of_lengthOkJob (l : Latched) (j : Job) (h : lengthOkJob l = some j) : jobOf l = some j := by
  rw [lengthOkJob] at h
  rw [jobOf]
  split at h
  · split_ifs at h; simpa using h
  · split_ifs at h; simpa using h
  · cases h

/-! ### Registers read and written by a Host -/

/-- A register read changes the reader's temporary and the count of free values, and nothing else (10_state.md R22). -/
theorem readReg_shape (r : Reg) (k : Nat) (s : State) :
    ∃ v n, readReg r k s = spend n (setTemp k v s) := by
  have h0 : ∀ v, setTemp k v s = spend 0 (setTemp k v s) := fun v => rfl
  have hr : ∀ v, ∃ w n, readResult v k s = spend n (setTemp k w s) := by
    intro v
    rw [readResult]
    cases latchOf s.phase with
    | none => exact ⟨_, 0, rfl⟩
    | some l => exact ⟨_, 4, rfl⟩
  cases r with
  | outlen => exact hr _
  | dout i => exact hr _
  | _ => exact ⟨_, 0, rfl⟩

/-- Every register is at its offset (10_state.md R21). -/
theorem regAt_regOffset (r : Reg) : accessed 32 (regOffset r) = .ok r := by
  cases r with
  | din i => fin_cases i <;> rfl
  | dout i => fin_cases i <;> rfl
  | _ => rfl

/-! ### Host scripts -/

/-- A label found stands on the first line that carries it (30_encoding.md R77; log 12). -/
theorem labelLine_append (x : Nat) (before after : List Line) (m : Nat) (h : Line.label x ∉ before) :
    labelLine x (before ++ .label x :: after) m = some (m + before.length) := by
  induction before generalizing m with
  | nil => simp [labelLine]
  | cons a r ih =>
    simp only [List.mem_cons, not_or] at h
    rw [List.cons_append, labelLine, if_neg (fun e => h.1 e.symm), ih _ h.2, List.length_cons]
    congr 1
    omega

/-- A label the script lacks stands on no line. -/
theorem labelLine_eq_none (x : Nat) (ls : List Line) (m : Nat) (h : Line.label x ∉ ls) : labelLine x ls m = none := by
  induction ls generalizing m with
  | nil => rfl
  | cons a r ih =>
    simp only [List.mem_cons, not_or] at h
    rw [labelLine, if_neg (fun e => h.1 e.symm), ih _ h.2]

end Sys2Proof.Machine
end

