-- ==== Sys2Proof/Laws/PerInstr.lean ====
section
/-! SUPPORT. The statements made per instruction: the encoder's word is one of the fourteen legal words. -/

namespace Sys2Proof.Laws.EncodesLegalWord

/-- The word of a well-formed command is in R72's list of fourteen. -/
def Statement (i : Instr) : Prop := wellFormed i = true → legalWords.contains (encode i) = true

theorem flookup : Statement .flookup := by unfold Statement; decide

theorem rlookup : Statement .rlookup := by unfold Statement; decide

theorem enc3 : ∀ n, Statement (.enc3 n) := by unfold Statement; decide

theorem enc12 : Statement .enc12 := by unfold Statement; decide

theorem dec4 : ∀ final, Statement (.dec4 final) := by unfold Statement; decide

theorem dec8 : ∀ final, Statement (.dec8 final) := by unfold Statement; decide

theorem aclass : ∀ dir, Statement (.aclass dir) := by
  intro dir
  cases dir <;> unfold Statement <;> decide

theorem encode : Statement .encode := by unfold Statement; decide

theorem decode : Statement .decode := by unfold Statement; decide

end Sys2Proof.Laws.EncodesLegalWord
end

