-- ==== Sys2Proof/Tests/Slice0.lean ====
section
/-! SUPPORT. Tests: the smoke test of WellFormed, decode tests on words written out from 30_encoding.md R70 and R72, one step
per instruction against the rows of 95_test_vectors.md, and for every statement with hypotheses a witness that meets
them. -/

namespace Sys2Proof.Tests

open Sys2Proof.Machine

/-! ### WellFormed: the ill-formed term of its one check -/

theorem test_wellFormed_refuses_enc3_of_zero_bytes : wellFormed (.enc3 0) = false := by decide

theorem test_wellFormed_accepts_every_legal_command : legalCommands.all wellFormed = true := by decide

/-! ### Decode: OP is bits 3:0, N bits 5:4, F bit 6, RSV bits 31:7 (R70); the opcodes of R72 -/

theorem test_decode_flookup : decode 0b0000000000000000000000000_0_00_0001#32 = .instr .flookup := by decide

theorem test_decode_rlookup : decode 0b0000000000000000000000000_0_00_0010#32 = .instr .rlookup := by decide

theorem test_decode_enc3 : decode 0b0000000000000000000000000_0_10_0011#32 = .instr (.enc3 2) := by decide

theorem test_decode_enc12 : decode 0b0000000000000000000000000_0_00_0100#32 = .instr .enc12 := by decide

theorem test_decode_dec4_final : decode 0b0000000000000000000000000_1_00_0101#32 = .instr (.dec4 true) := by decide

theorem test_decode_dec8 : decode 0b0000000000000000000000000_0_00_0110#32 = .instr (.dec8 false) := by decide

theorem test_decode_aclass_decode_side :
    decode 0b0000000000000000000000000_1_00_0111#32 = .instr (.aclass .decodeSide) := by decide

theorem test_decode_encode : decode 0b0000000000000000000000000_0_00_1000#32 = .instr .encode := by decide

theorem test_decode_decode : decode 0b0000000000000000000000000_0_00_1001#32 = .instr .decode := by decide

/-- Illegal words, one per reason of R74 and per boundary: reserved opcodes 0 and 10, N = 0 for ENC3, N for another
operation, F where there is no flag, and RSV bits 7 and 31. -/
theorem test_decode_illegal_words :
    decode 0x00000000 = .illegal .reservedOpcode ∧ decode 0x0000000A = .illegal .reservedOpcode ∧
    decode 0x0000000F = .illegal .reservedOpcode ∧ decode 0x00000003 = .illegal .badCount ∧
    decode 0x00000015 = .illegal .badCount ∧ decode 0x00000041 = .illegal .badFlag ∧
    decode 0x00000053 = .illegal .badFlag ∧ decode 0x00000081 = .illegal .reservedBits ∧
    decode 0x80000001 = .illegal .reservedBits := by decide

theorem test_assembler : assemble "ENC3 2" = some 0x00000023 ∧ assemble "DEC8.F" = some 0x00000046 ∧
    assemble "ENC3 0" = none ∧ disassemble 0x00000047 = "ACLASS.D" ∧ disassemble 0x0000008A = ".word 0x0000008A" := by
  decide

/-! ### States to test on -/

/-- A platform that backs and permits everything, REG_BASE 0 in a space of its own, REV_SENTINEL 0xFF. -/
def plain : Platform := ⟨0, 0x7F, [], [], false, []⟩

/-- The state after reset, on that platform. -/
def quiet : State := { State.reset with platform := plain }

/-- The latched copies of a command. -/
def operands (cw src dst len d0 d1 d2 : Word) : Latched := ⟨cw, src, dst, len, #v[d0, d1, d2], 0⟩

/-- A running command, on a memory. -/
def running (l : Latched) (m : Memory) : State := { quiet with status := 1, phase := .busy l, mem := m }

/-- A running group command. -/
def group (cw d0 d1 d2 : Word) : State := running (operands cw 0 0 0 d0 d1 d2) []

/-- A running buffer command, source 0x1000, destination 0x2000, with its source text. -/
def buffer (cw len : Word) (text : List Byte) : State :=
  running (operands cw 0x1000 0x2000 len 0 0 0) (writeBytes [] 0x1000 text)

/-- A test of the next state of an outcome. -/
def gives (o : Out) (test : State → Bool) : Bool :=
  match o with
  | .next t => test t
  | .fault _ => false
  | .refused _ => false

/-- The registers a completion writes. -/
def results (t : State) : Word × Word × Word × Word := (t.status, t.outlen, t.dout[0], t.dout[1])

/-! ### One step per instruction (95_test_vectors.md sections 1 to 6) -/

theorem test_flookup_ignores_high_bits :
    gives (step (group 0x01 0xFFFFFFC0 0 0)) (fun t => results t == (2, 1, 0x41, 0)) = true := by decide

theorem test_flookup_last_index :
    gives (step (group 0x01 0x0000007F 0 0)) (fun t => results t == (2, 1, 0x2F, 0)) = true := by decide

theorem test_rlookup_digit :
    gives (step (group 0x02 0x12345639 0 0)) (fun t => results t == (2, 1, 0x3D, 0)) = true := by decide

theorem test_rlookup_padding_character_gives_the_sentinel :
    gives (step (group 0x02 0x0000003D 0 0)) (fun t => results t == (2, 1, 0xFF, 0)) = true := by decide

theorem test_enc3_three_bytes :
    gives (step (group 0x33 0x009CFB14 0 0)) (fun t => results t == (2, 4, 0x63755046, 0)) = true := by decide

theorem test_enc3_one_byte_ignores_the_other_lanes :
    gives (step (group 0x13 0xFFFFFF41 0 0)) (fun t => results t == (2, 4, 0x3D3D5151, 0)) = true := by decide

theorem test_enc12_straddling_groups :
    gives (step (group 0x04 0xF7F6F5F4 0xFBFAF9F8 0xFFFEFDFC)) (fun t => t.outlen == 16 &&
      t.dout == #v[0x32585039, 0x356A2F39, 0x3876762B, 0x2F37662F]) = true := by decide

theorem test_dec4_final_discards_low_bits :
    gives (step (group 0x45 0x3D4A5551 0 0)) (fun t => results t == (2, 2, 0x4241, 0)) = true := by decide

theorem test_dec4_final_one_padding_then_no_padding_fails :
    gives (step (group 0x45 0x213D5151 0 0)) (fun t => t.status == 0x26 && t.outlen == 0) = true := by decide

theorem test_dec8_final_with_padding :
    gives (step (group 0x46 0x444A5551 0x3D495551 0)) (fun t => results t == (2, 5, 0x41434241, 0x42)) = true := by decide

theorem test_dec8_lowest_position_decides :
    gives (step (group 0x46 0x444A5521 0x444A553D 0)) (fun t => t.status == 0x16 && t.outlen == 0) = true := by decide

theorem test_aclass_encode_side :
    gives (step (running (operands 0x07 0x00001001 0 0 0 0 0) [])) (fun t => results t == (2, 1, 0x35, 0)) = true := by
  decide

theorem test_aclass_decode_side :
    gives (step (running (operands 0x47 0xFFFFFFFF 0 0 0 0 0) [])) (fun t => results t == (2, 1, 0x3B, 0)) = true := by
  decide

/-- `foob` gives `Zm9vYg==`. -/
theorem test_encode_foob : gives (step (buffer 0x08 4 [0x66, 0x6F, 0x6F, 0x62])) (fun t =>
    t.status == 2 && t.outlen == 8 &&
      readBytes t.mem 0x2000 8 == [0x5A, 0x6D, 0x39, 0x76, 0x59, 0x67, 0x3D, 0x3D]) = true := by decide

theorem test_encode_zero_length_comes_first :
    gives (step (running (operands 0x08 0xFFFFFFFF 0x1000 0 0 0 0) [])) (fun t => t.status == 0x9A) = true := by decide

/-- `QUI=` gives 41 42 and one byte of any value. -/
theorem test_decode_padded : gives (step (buffer 0x09 4 [0x51, 0x55, 0x49, 0x3D])) (fun t =>
    t.status == 2 && t.outlen == 2 && readBytes (writeBytes t.mem 0x2002 [0]) 0x2000 2 == [0x41, 0x42]) = true := by
  decide

/-- `Zm9v=mFy` fails at position 4. -/
theorem test_decode_padding_in_the_middle :
    gives (step (buffer 0x09 8 [0x5A, 0x6D, 0x39, 0x76, 0x3D, 0x6D, 0x46, 0x79])) (fun t =>
      t.status == 0x26 && t.outlen == 0) = true := by decide

/-! ### Witnesses: for every statement with hypotheses, a state and operands that meet them together -/

/-- A Host that is about to take a turn. -/
def withTurns (ts : List Turn) (s : State) : State := { s with turns := ts }

theorem busy_running (l : Latched) (m : Memory) : (running l m).phase = .busy l := rfl

/-- A stuck ENCODE of one byte. -/
def stuckState : State := { quiet with status := 1, phase := .stuck (operands 0x08 0x1000 0x2000 1 0 0 0) }

theorem witness_DecodeOfEncodeGivesTheCommandBack : wellFormed (.enc3 1) = true ∧ wellFormed (.enc3 3) = true := by
  decide

theorem witness_DecodedWordIsTheEncodingOfItsCommand : decode 0x00000047 = .instr (.aclass .decodeSide) := by decide

theorem witness_IllegalWordsCompleteAsIllegalCommand :
    (quiet.phase = .idle ∧ decode 0x00000003 = .illegal .badCount ∧
      (withTurns [.write 32 0x00 0x00000003] quiet).turns = .write 32 0x00 0x00000003 :: []) ∧
    (withTurns [.engine] (group 0x0A 0 0 0)).phase = .busy (operands 0x0A 0 0 0 0 0 0) ∧
    decode (operands 0x0A 0 0 0 0 0 0).cw = .illegal .reservedOpcode ∧
    (withTurns [.engine] (group 0x0A 0 0 0)).turns = .engine :: [] := by decide

theorem witness_AssemblerTextGivesTheCommandWord : wellFormed (.dec8 true) = true ∧
    decode 0x00000047 = .instr (.aclass .decodeSide) ∧ decode 0x89ABCDEF = .illegal .reservedBits := by decide

theorem witness_StepRunsTheDecodedCommand :
    ((withTurns [.engine, .script] (group 0x04 1 2 3)).phase = .busy (operands 0x04 0 0 0 1 2 3) ∧
      decode (operands 0x04 0 0 0 1 2 3).cw = .instr .enc12 ∧
      (withTurns [.engine, .script] (group 0x04 1 2 3)).turns = .engine :: [.script]) ∧
    ((buffer 0x08 1 [0x41]).phase = .busy (operands 0x08 0x1000 0x2000 1 0 0 0) ∧
      decode (operands 0x08 0x1000 0x2000 1 0 0 0).cw = .instr .encode ∧ (buffer 0x08 1 [0x41]).turns = []) ∧
    (0x00000047 < 4294967296 ∧ decode (BitVec.ofNat 32 0x00000047) = .instr (.aclass .decodeSide)) := by decide

theorem witness_CmdWriteIssuesAndLatches :
    (withTurns [.write 32 0x00 0xFFFFFFFF] quiet).phase = .idle ∧
      (withTurns [.write 32 0x00 0xFFFFFFFF] quiet).turns = .write 32 0x00 0xFFFFFFFF :: [] := by decide

theorem witness_CommandWhileBusyIsRefused :
    ((withTurns [.write 32 0x00 1] (group 0x01 0 0 0)).phase = .busy (operands 0x01 0 0 0 0 0 0) ∧
      (withTurns [.write 32 0x00 1] (group 0x01 0 0 0)).turns = .write 32 0x00 1 :: []) ∧
    (withTurns [.write 32 0x00 1] stuckState).phase = .stuck (operands 0x08 0x1000 0x2000 1 0 0 0) ∧
      (withTurns [.write 32 0x00 1] stuckState).turns = .write 32 0x00 1 :: [] := by decide

theorem witness_RunningCommandCompletesOrIsHeld :
    (buffer 0x09 4 [0x51, 0x55, 0x49, 0x3D]).phase = .busy (operands 0x09 0x1000 0x2000 4 0 0 0) := rfl

theorem witness_StuckEngineNeverCompletes :
    (withTurns [.engine, .write 32 0x08 7, .read 32 0x04 0] stuckState).phase =
        .stuck (operands 0x08 0x1000 0x2000 1 0 0 0) ∧
      Turn.reset ∉ (withTurns [.engine, .write 32 0x08 7, .read 32 0x04 0] stuckState).turns ∧
      ∃ t, core.run 3 (withTurns [.engine, .write 32 0x08 7, .read 32 0x04 0] stuckState) = .next t :=
  ⟨rfl, by decide, _, rfl⟩

theorem witness_GroupCommandCompletesAfterPolls :
    (withTurns [.read 32 0x04 0, .read 32 0x04 0] (group 0x01 0 0 0)).phase = .busy (operands 0x01 0 0 0 0 0 0) ∧
      decode (operands 0x01 0 0 0 0 0 0).cw = .instr .flookup ∧ Instr.flookup ≠ .encode ∧ Instr.flookup ≠ .decode ∧
      (withTurns [.read 32 0x04 0, .read 32 0x04 0] (group 0x01 0 0 0)).turns =
        List.replicate 2 (.read 32 0x04 0) := by decide

theorem witness_ResultsStayUntilIssueOrReset :
    ∃ t, step (withTurns [.read 32 0x14 5] quiet) = .next t ∧ (withTurns [.read 32 0x14 5] quiet).phase = .idle ∧
      t.phase = .idle ∧ (withTurns [.read 32 0x14 5] quiet).turns.head? ≠ some .reset ∧
      (∀ a v, (withTurns [.read 32 0x14 5] quiet).turns.head? ≠ some (.memWrite a v)) :=
  ⟨_, rfl, rfl, rfl, by decide, fun a v h => by cases h⟩

/-- A wrong width; a misaligned offset; each reserved offset; a write and a read. -/
theorem witness_InadmissibleRegisterAccessesAreRefused :
    ((withTurns [.write 16 0x00 1] quiet).turns = .write 16 0x00 1 :: [] ∧ (16 : Nat) ≠ 32) ∧
    ((withTurns [.read 32 0x3E 0] quiet).turns = .read 32 0x3E 0 :: [] ∧ (0x3E#6).toNat % 4 ≠ 0) ∧
    ((withTurns [.read 32 0x34 0] quiet).turns = .read 32 0x34 0 :: [] ∧ (0x34#6).toNat % 4 = 0) ∧
    ((withTurns [.write 32 0x38 0] quiet).turns = .write 32 0x38 0 :: [] ∧ (0x38#6).toNat % 4 = 0) ∧
    ((withTurns [.write 32 0x3C 0] quiet).turns = .write 32 0x3C 0 :: [] ∧ (0x3C#6).toNat % 4 = 0) := by decide

theorem witness_IdleReadsReturnTheRegister :
    (withTurns [.read 32 (regOffset (.dout 3)) 2] quiet).phase = .idle ∧
      sparseWf unwrittenTemp (withTurns [.read 32 (regOffset (.dout 3)) 2] quiet).host.temps = true ∧
      (withTurns [.read 32 (regOffset (.dout 3)) 2] quiet).turns = .read 32 (regOffset (.dout 3)) 2 :: [] := by decide

theorem witness_ResultReadsWhileBusyAreFree :
    ∀ r ∈ [Reg.outlen, .dout 0, .dout 3, .cmd, .status, .src, .dst, .len, .din 0, .din 2],
      (withTurns [.read 32 (regOffset r) 1] (group 0x01 0 0 0)).inv = true ∧
      (withTurns [.read 32 (regOffset r) 1] (group 0x01 0 0 0)).phase = .busy (operands 0x01 0 0 0 0 0 0) ∧
      (withTurns [.read 32 (regOffset r) 1] (group 0x01 0 0 0)).turns = .read 32 (regOffset r) 1 :: [] ∧
      (withTurns [.read 32 (regOffset r) 1] stuckState).inv = true ∧
      (withTurns [.read 32 (regOffset r) 1] stuckState).phase = .stuck (operands 0x08 0x1000 0x2000 1 0 0 0) ∧
      (withTurns [.read 32 (regOffset r) 1] stuckState).turns = .read 32 (regOffset r) 1 :: [] := by decide

theorem witness_RegisterWritesStoreOrAreIgnored :
    ∀ r ∈ [Reg.src, .dst, .len, .din 0, .din 2, .status, .outlen, .dout 0, .dout 3],
      (withTurns [.write 32 (regOffset r) 5] (group 0x01 0 0 0)).turns = .write 32 (regOffset r) 5 :: [] := by decide

theorem witness_NoCommandWritesTheOperandRegisters : ∃ t, exec .flookup (group 0x01 9 0 0) = .next t := ⟨_, rfl⟩

/-- The first and the last byte of each range, of ENCODE of 4 bytes (8 written) and of DECODE of 4 characters (3
written). -/
theorem witness_ForeignAccessesWhileABufferCommandRuns :
    ((buffer 0x08 4 []).inv = true ∧ (buffer 0x08 4 []).phase = .busy (operands 0x08 0x1000 0x2000 4 0 0 0) ∧
      decode (operands 0x08 0x1000 0x2000 4 0 0 0).cw = .instr .encode ∧
      8 = 4 * (((operands 0x08 0x1000 0x2000 4 0 0 0).len.toNat + 2) / 3)) ∧
    ((buffer 0x09 4 []).inv = true ∧ (buffer 0x09 4 []).phase = .busy (operands 0x09 0x1000 0x2000 4 0 0 0) ∧
      decode (operands 0x09 0x1000 0x2000 4 0 0 0).cw = .instr .decode ∧
      3 = 3 * ((operands 0x09 0x1000 0x2000 4 0 0 0).len.toNat / 4)) ∧
    (stuckState.inv = true ∧ stuckState.phase = .stuck (operands 0x08 0x1000 0x2000 1 0 0 0)) ∧
    (∀ a ∈ [(0x1000 : Word), 0x1003, 0x2000, 0x2007],
      ((0x1000 ≤ a.toNat ∧ a.toNat < 0x1000 + 4) ∨ (0x2000 ≤ a.toNat ∧ a.toNat < 0x2000 + 8)) ∧
      (withTurns [.memWrite a 1] (buffer 0x08 4 [])).turns = .memWrite a 1 :: []) ∧
    (∀ a ∈ [(0x2000 : Word), 0x2002], (0x2000 ≤ a.toNat ∧ a.toNat < 0x2000 + 3) ∧
      (withTurns [.memRead a 1] (buffer 0x09 4 [])).turns = .memRead a 1 :: []) ∧
    (∀ a ∈ [(0x1000 : Word), 0x1003], (0x1000 ≤ a.toNat ∧ a.toNat < 0x1000 + 4) ∧
      ¬ (0x2000 ≤ a.toNat ∧ a.toNat < 0x2000 + 8) ∧ ordinary (buffer 0x08 4 []).platform a.toNat = true ∧
      (withTurns [.memRead a 1] (buffer 0x08 4 [])).turns = .memRead a 1 :: []) := by
  refine ⟨by decide, by decide, by decide, ?_, ?_, ?_⟩ <;> simp [withTurns, ordinary, buffer, running, quiet, plain]

theorem witness_ForeignWritesStoreTheirByte :
    Memory.wf (withTurns [.memWrite 0xFFFFFFFF 7] (group 0x01 0 0 0)).mem = true ∧
      (∀ l, (withTurns [.memWrite 0xFFFFFFFF 7] (group 0x01 0 0 0)).phase = .busy l ∨
          (withTurns [.memWrite 0xFFFFFFFF 7] (group 0x01 0 0 0)).phase = .stuck l →
        decode l.cw ≠ .instr .encode ∧ decode l.cw ≠ .instr .decode) ∧
      ordinary (withTurns [.memWrite 0xFFFFFFFF 7] (group 0x01 0 0 0)).platform (0xFFFFFFFF#32).toNat = true ∧
      (withTurns [.memWrite 0xFFFFFFFF 7] (group 0x01 0 0 0)).turns = .memWrite 0xFFFFFFFF 7 :: [] := by
  refine ⟨by decide, fun l h => ?_, by decide, rfl⟩
  rcases h with h | h
  · cases h; decide
  · cases h

theorem witness_TableLaws : (rev plain 0x2F).getLsbD 7 = false ∧ (rev plain 0x3D).getLsbD 7 = true ∧
    fwd 5 = fwd 5 := by decide

theorem witness_FlookupResult : (group 0x01 0xFFFFFFFF 0 0).phase = .busy (operands 0x01 0 0 0 0xFFFFFFFF 0 0) := rfl

/-- A character of the table, at its first and its last value, and a byte that is none. -/
theorem witness_RlookupResult :
    (group 0x02 0x41 0 0).phase = .busy (operands 0x02 0 0 0 0x41 0 0) ∧
    ((0 : Nat) < 64 ∧ alphabetChar 0 = (operands 0x02 0 0 0 0x41 0 0).din[0].toNat % 256) ∧
    ((63 : Nat) < 64 ∧ alphabetChar 63 = (operands 0x02 0 0 0 0x2F 0 0).din[0].toNat % 256) ∧
    ∀ v, v < 64 → alphabetChar v ≠ (operands 0x02 0 0 0 0x3D 0 0).din[0].toNat % 256 := by decide

theorem witness_Enc3Result : ∀ n ∈ [(1 : BitVec 2), 2, 3], n ≠ 0 ∧
    (group 0x13 0x41 0 0).phase = .busy (operands 0x13 0 0 0 0x41 0 0) := by decide

theorem witness_Enc12Result : (group 0x04 1 2 3).phase = .busy (operands 0x04 0 0 0 1 2 3) := rfl

/-- Group 1 of the block F4 to FF: bytes F7 F8 F9. -/
theorem witness_Enc12IsLanewiseEnc3 :
    (∀ k : Fin 3, lane (operands 0x33 0 0 0 0x00F9F8F7 0 0).din[0] k.val =
      groupByte (operands 0x04 0 0 0 0xF7F6F5F4 0xFBFAF9F8 0xFFFEFDFC).din ⟨3 * (1 : Fin 4).val + k.val, by omega⟩) ∧
    (∃ t, exec .enc12 (group 0x04 0xF7F6F5F4 0xFBFAF9F8 0xFFFEFDFC) = .next t) ∧
    ∃ t', exec (.enc3 3) (group 0x33 0x00F9F8F7 0 0) = .next t' := ⟨by decide, ⟨_, rfl⟩, _, rfl⟩

/-- The characters of a group in a word. -/
def chars (w : Word) : Fin 4 → Nat := fun i => byteOf w.toNat i.val

/-- `QUJD` as a non-final and as a final group, `QUI=` and `QQ==` as final groups. -/
theorem witness_Dec4AcceptsLegalGroups :
    (group 0x45 0x3D3D5151 0 0).phase = .busy (operands 0x45 0 0 0 0x3D3D5151 0 0) ∧
    (∀ i, badPosition (chars 0x444A5551) false i = false) ∧ (∀ i, badPosition (chars 0x444A5551) true i = false) ∧
    (∀ i, badPosition (chars 0x3D495551) true i = false) ∧ ∀ i, badPosition (chars 0x3D3D5151) true i = false := by
  decide

/-- `====` fails at position 0, `QUI!` at position 3, `QQ==` as a non-final group at position 2. -/
theorem witness_Dec4RejectsAtTheFirstIllegalPosition :
    (group 0x45 0x3D3D3D3D 0 0).phase = .busy (operands 0x45 0 0 0 0x3D3D3D3D 0 0) ∧
    (badPosition (chars 0x3D3D3D3D) true 0 = true ∧ ∀ j, j < (0 : Fin 4) → badPosition (chars 0x3D3D3D3D) true j = false) ∧
    (badPosition (chars 0x21495551) true 3 = true ∧ ∀ j, j < (3 : Fin 4) → badPosition (chars 0x21495551) true j = false) ∧
    badPosition (chars 0x3D3D5151) false 2 = true ∧
      ∀ j, j < (2 : Fin 4) → badPosition (chars 0x3D3D5151) false j = false := by decide

theorem witness_Dec8AcceptsLegalBlocks :
    (group 0x46 0x444A5551 0x3D3D5151 0).phase = .busy (operands 0x46 0 0 0 0x444A5551 0x3D3D5151 0) ∧
    (∀ i, badPosition (chars 0x444A5551) false i = false) ∧ ∀ i, badPosition (chars 0x3D3D5151) true i = false := by
  decide

/-- `Q=JDQUJD` fails in the first group, `QUJDQ!==` in the second. -/
theorem witness_Dec8RejectsAtTheFirstIllegalPosition :
    (group 0x46 0x444A3D51 0x444A5551 0).phase = .busy (operands 0x46 0 0 0 0x444A3D51 0x444A5551 0) ∧
    (badPosition (chars 0x444A3D51) false 1 = true ∧ ∀ j, j < (1 : Fin 4) → badPosition (chars 0x444A3D51) false j = false) ∧
    (∀ j, badPosition (chars 0x444A5551) false j = false) ∧ badPosition (chars 0x3D3D2151) true 1 = true ∧
      ∀ j, j < (1 : Fin 4) → badPosition (chars 0x3D3D2151) true j = false := by decide

/-- Both groups legal; the first illegal; the second illegal. -/
theorem witness_Dec8IsTwoDec4 :
    (∀ d ∈ [((0x444A5551 : Word), (0x3D3D5151 : Word)), (0x444A3D51, 0x444A5551), (0x444A5551, 0x3D3D2151)],
      (operands 0x05 0 0 0 d.1 0 0).din[0] = (operands 0x46 0 0 0 d.1 d.2 0).din[0] ∧
      (operands 0x45 0 0 0 d.2 0 0).din[0] = (operands 0x46 0 0 0 d.1 d.2 0).din[1] ∧
      gives (exec (.dec8 true) (group 0x46 d.1 d.2 0)) (fun _ => true) = true ∧
      gives (exec (.dec4 false) (group 0x05 d.1 0 0)) (fun _ => true) = true ∧
      gives (exec (.dec4 true) (group 0x45 d.2 0 0)) (fun _ => true) = true) ∧
    gives (exec (.dec4 false) (group 0x05 0x444A5551 0 0)) (fun t => !failFlag t.status) = true ∧
    gives (exec (.dec4 true) (group 0x45 0x3D3D5151 0 0)) (fun t => !failFlag t.status) = true ∧
    gives (exec (.dec4 false) (group 0x05 0x444A3D51 0 0)) (fun t => failFlag t.status) = true ∧
    gives (exec (.dec4 true) (group 0x45 0x3D3D2151 0 0)) (fun t => failFlag t.status) = true := by
  refine ⟨?_, by decide, by decide, by decide, by decide⟩
  simp only [List.forall_mem_cons]
  exact ⟨by decide, by decide, by decide, by simp⟩

/-- Each residue; the statement's clauses differ in the side or in the residue. -/
theorem witness_AclassResult : ∀ r ∈ [(0x1000 : Word), 0x1001, 0x1002, 0x1003],
    (running (operands 0x07 r 0 0 0 0 0) []).phase = .busy (operands 0x07 r 0 0 0 0 0) ∧ r.toNat % 4 = r.toNat - 0x1000 := by
  intro r hr
  fin_cases hr <;> exact ⟨rfl, by decide⟩

/-! Buffer commands -/

theorem plain_backs (j : Job) (h : platformRefusal plain j = none) : rangesBacked plain j :=
  ⟨h, fun _ _ _ => rfl, fun _ _ _ => rfl⟩

/-- ENCODE of 1 byte and of 4. -/
theorem witness_EncodeWritesTheText : ∀ n ∈ [(1 : Word), 4],
    (buffer 0x08 n [0x66]).phase = .busy (operands 0x08 0x1000 0x2000 n 0 0 0) ∧
      Memory.wf (buffer 0x08 n [0x66]).mem = true ∧ 0 < (operands 0x08 0x1000 0x2000 n 0 0 0).len.toNat ∧
      rangesClear (encodeJob (operands 0x08 0x1000 0x2000 n 0 0 0)) ∧
      rangesBacked (buffer 0x08 n [0x66]).platform (encodeJob (operands 0x08 0x1000 0x2000 n 0 0 0)) := by
  intro n hn
  fin_cases hn
  · exact ⟨rfl, by decide, by decide, by unfold rangesClear; decide, plain_backs _ (by decide)⟩
  · exact ⟨rfl, by decide, by decide, by unfold rangesClear; decide, plain_backs _ (by decide)⟩

/-- The clauses of the ENCODE checks at boundary values: length 0; a source and a destination that pass the end of the
space by one byte; ranges that share their last byte. -/
theorem witness_EncodeReportsProgrammerErrors :
    (operands 0x08 0x1000 0x2000 0 0 0 0).len.toNat = 0 ∧
    ((1 : Nat) ≠ 0 ∧ 4294967296 < (0xFFFFFFFF#32).toNat + 2) ∧
    ((1 : Nat) ≠ 0 ∧ 4294967296 < (0xFFFFFFFD#32).toNat + 4 * ((1 + 2) / 3)) ∧
    ((1 : Nat) ≠ 0 ∧ (0x1003#32).toNat + 1 ≤ 4294967296 ∧ (0x1000#32).toNat + 4 * ((1 + 2) / 3) ≤ 4294967296 ∧
      (0x1003#32).toNat < (0x1000#32).toNat + 4 * ((1 + 2) / 3) ∧ (0x1000#32).toNat < (0x1003#32).toNat + 1) ∧
    (buffer 0x08 0 []).phase = .busy (operands 0x08 0x1000 0x2000 0 0 0 0) := by decide

theorem witness_DecodeReportsLengthRangeAndOverlap :
    (buffer 0x09 3 []).phase = .busy (operands 0x09 0x1000 0x2000 3 0 0 0) ∧
    ((3 : Nat) = 0 ∨ 3 % 4 ≠ 0) ∧ ((0 : Nat) = 0 ∨ 0 % 4 ≠ 0) ∧
    ((4 : Nat) ≠ 0 ∧ 4 % 4 = 0 ∧ 4294967296 < (0xFFFFFFFD#32).toNat + 4) ∧
    ((4 : Nat) ≠ 0 ∧ 4 % 4 = 0 ∧ 4294967296 < (0xFFFFFFFE#32).toNat + 3 * (4 / 4)) ∧
    ((4 : Nat) ≠ 0 ∧ 4 % 4 = 0 ∧ (0x1002#32).toNat + 4 ≤ 4294967296 ∧ (0x1000#32).toNat + 3 * (4 / 4) ≤ 4294967296 ∧
      (0x1002#32).toNat < (0x1000#32).toNat + 3 * (4 / 4) ∧ (0x1000#32).toNat < (0x1002#32).toNat + 4) := by decide

/-- A platform in one space with the register block at 0x1000, and one with side effects at the last destination byte. -/
def blockAtSource : Platform := ⟨0x40, 0x7F, [], [], true, []⟩
def effectsAtDest : Platform := ⟨0, 0x7F, [], [], true, [⟨0x2003, 1⟩]⟩

theorem witness_BufferRangesThePlatformForbidsAreRefused :
    ({ buffer 0x08 1 [] with platform := blockAtSource } : State).phase = .busy (operands 0x08 0x1000 0x2000 1 0 0 0) ∧
    (0 < 1 ∧ (⟨0x1000, 1, 0x2000, 4⟩ : Job) = ⟨(operands 0x08 0x1000 0x2000 1 0 0 0).src.toNat,
        (operands 0x08 0x1000 0x2000 1 0 0 0).len.toNat, (operands 0x08 0x1000 0x2000 1 0 0 0).dst.toNat,
        4 * (((operands 0x08 0x1000 0x2000 1 0 0 0).len.toNat + 2) / 3)⟩ ∧ rangesClear ⟨0x1000, 1, 0x2000, 4⟩) ∧
    (blockAtSource.sharedSpace = true ∧ (0x1000 ≤ 0x1000 ∧ 0x1000 < 0x1000 + 1) ∧
      64 * blockAtSource.regBlock ≤ 0x1000 ∧ 0x1000 < 64 * blockAtSource.regBlock + 64) ∧
    (¬ (effectsAtDest.sharedSpace = true ∧ ∃ a, ((0x1000 ≤ a ∧ a < 0x1000 + 1) ∨ (0x2000 ≤ a ∧ a < 0x2000 + 4)) ∧
        64 * effectsAtDest.regBlock ≤ a ∧ a < 64 * effectsAtDest.regBlock + 64) ∧
      (0x2000 ≤ 0x2003 ∧ 0x2003 < 0x2000 + 4) ∧ (⟨0x2003, 1⟩ : Region) ∈ effectsAtDest.sideEffects ∧
        0x2003 ≤ 0x2003 ∧ 0x2003 < 0x2003 + 1) := by
  refine ⟨rfl, ⟨by decide, by decide, by unfold rangesClear; decide⟩, by decide, ?_, by decide⟩
  rintro ⟨-, a, h1, h2, h3⟩
  have : effectsAtDest.regBlock = 0 := rfl
  omega

/-- A platform that does not back the read of the last of eight source bytes and the writes from the fifth destination byte
on, and that refuses neither job. -/
def holes : Platform := ⟨0, 0x7F, [⟨0x1007, 1⟩], [⟨0x2004, 8⟩], false, []⟩

theorem holes_pass : rangesClear (encodeJob (operands 0x08 0x1000 0x2000 8 0 0 0)) ∧
    platformRefusal holes (encodeJob (operands 0x08 0x1000 0x2000 8 0 0 0)) = none ∧
    rangesClear (decodeJob (operands 0x09 0x1000 0x2000 8 0 0 0)) ∧
    platformRefusal holes (decodeJob (operands 0x09 0x1000 0x2000 8 0 0 0)) = none :=
  ⟨by unfold rangesClear; decide, by decide, by unfold rangesClear; decide, by decide⟩

/-- The text `QUJDQUI=`, legal, on that platform: its last decoded byte is the fifth. -/
def legalOverHoles : State :=
  { buffer 0x09 8 [0x51, 0x55, 0x4A, 0x44, 0x51, 0x55, 0x49, 0x3D] with platform := holes }

/-- The text `QUJD!UJD`, which fails at position 4, on that platform: the last character is in the failing group. -/
def illegalOverHoles : State :=
  { buffer 0x09 8 [0x51, 0x55, 0x4A, 0x44, 0x21, 0x55, 0x4A, 0x44] with platform := holes }

theorem witness_UnbackedAccessLeavesTheEngineStuck :
    (legalOverHoles.phase = .busy (operands 0x09 0x1000 0x2000 8 0 0 0) ∧
      illegalOverHoles.phase = .busy (operands 0x09 0x1000 0x2000 8 0 0 0) ∧
      0 < (operands 0x09 0x1000 0x2000 8 0 0 0).len.toNat ∧ (operands 0x09 0x1000 0x2000 8 0 0 0).len.toNat % 4 = 0) ∧
    (0x1000 ≤ 0x1007 ∧ 0x1007 < 0x1000 + 8 ∧ 0x2000 ≤ 0x200B ∧ 0x200B < 0x2000 + 4 * ((8 + 2) / 3)) ∧
    (7 < 8 ∧ 0x1007 = 0x1000 + 7 ∧
      (∀ k, k < 4 * (7 / 4) → badTextPosition (byteAt illegalOverHoles 0x1000) 8 k = false) ∧
      (∀ k, k < 4 * (7 / 4) → badTextPosition (byteAt legalOverHoles 0x1000) 8 k = false)) ∧
    (0x2000 ≤ 0x2004 ∧ 0x2004 < 0x2000 + (3 * (8 / 4) - textPad (byteAt legalOverHoles 0x1000) 8) ∧
      ∀ k, k < 8 → badTextPosition (byteAt legalOverHoles 0x1000) 8 k = false) ∧
    (⟨0x1007, 1⟩ : Region) ∈ holes.noRead ∧ (⟨0x2004, 8⟩ : Region) ∈ holes.noWrite ∧
    (0x1007 ≤ 0x1007 ∧ 0x1007 < 0x1007 + 1) ∧ (0x2004 ≤ 0x2004 ∧ 0x200B < 0x2004 + 8) :=
  ⟨⟨rfl, rfl, by decide, by decide⟩, by decide, by decide, by decide, by decide, by decide, by decide, by decide⟩

/-- A stuck DECODE uses up the draw that stands for its choice. -/
theorem test_decode_stuck_uses_its_draw :
    gives (exec .decode legalOverHoles) (fun t => t.draws == 1 && t.phase != .idle && t.status == 1) = true := by decide

theorem backed_decode : Memory.wf (buffer 0x09 4 [0x51, 0x55, 0x49, 0x3D]).mem = true ∧
    rangesClear (decodeJob (operands 0x09 0x1000 0x2000 4 0 0 0)) ∧
    rangesBacked (buffer 0x09 4 [0x51, 0x55, 0x49, 0x3D]).platform (decodeJob (operands 0x09 0x1000 0x2000 4 0 0 0)) :=
  ⟨by decide, by unfold rangesClear; decide, plain_backs _ (by decide)⟩

/-- `A===` fails at position 1. -/
theorem witness_DecodeRejectsIllegalText :
    (buffer 0x09 4 [0x41, 0x3D, 0x3D, 0x3D]).phase = .busy (operands 0x09 0x1000 0x2000 4 0 0 0) ∧
    Memory.wf (buffer 0x09 4 [0x41, 0x3D, 0x3D, 0x3D]).mem = true ∧
    rangesClear (decodeJob (operands 0x09 0x1000 0x2000 4 0 0 0)) ∧
    rangesBacked (buffer 0x09 4 [0x41, 0x3D, 0x3D, 0x3D]).platform (decodeJob (operands 0x09 0x1000 0x2000 4 0 0 0)) ∧
    badTextPosition (byteAt (buffer 0x09 4 [0x41, 0x3D, 0x3D, 0x3D]) 0x1000) 4 1 = true ∧
    ∀ k', k' < 1 → badTextPosition (byteAt (buffer 0x09 4 [0x41, 0x3D, 0x3D, 0x3D]) 0x1000) 4 k' = false :=
  ⟨rfl, by decide, backed_decode.2.1, plain_backs _ (by decide), by decide, by decide⟩

/-- `QUI=`, with one padding character. -/
theorem witness_DecodeAcceptsLegalText :
    (buffer 0x09 4 [0x51, 0x55, 0x49, 0x3D]).phase = .busy (operands 0x09 0x1000 0x2000 4 0 0 0) ∧
    Memory.wf (buffer 0x09 4 [0x51, 0x55, 0x49, 0x3D]).mem = true ∧
    rangesClear (decodeJob (operands 0x09 0x1000 0x2000 4 0 0 0)) ∧
    rangesBacked (buffer 0x09 4 [0x51, 0x55, 0x49, 0x3D]).platform (decodeJob (operands 0x09 0x1000 0x2000 4 0 0 0)) ∧
    (∀ k, k < 4 → badTextPosition (byteAt (buffer 0x09 4 [0x51, 0x55, 0x49, 0x3D]) 0x1000) 4 k = false) ∧
    1 = textPad (byteAt (buffer 0x09 4 [0x51, 0x55, 0x49, 0x3D]) 0x1000) 4 :=
  ⟨rfl, backed_decode.1, backed_decode.2.1, backed_decode.2.2, by decide, by decide⟩

/-- ENCODE of one byte at 0x1000 to 0x2000, then DECODE of the four characters to 0x3000. -/
theorem witness_DecodeOfEncodeIsTheIdentity : ∃ t : State,
    (buffer 0x08 1 [0x41]).phase = .busy (operands 0x08 0x1000 0x2000 1 0 0 0) ∧
    Memory.wf (buffer 0x08 1 [0x41]).mem = true ∧ 0 < (operands 0x08 0x1000 0x2000 1 0 0 0).len.toNat ∧
    exec .encode (buffer 0x08 1 [0x41]) = .next t ∧ t.phase = .idle ∧ t.status = 0x00000002 ∧
    (running (operands 0x09 0x2000 0x3000 4 0 0 0) t.mem).phase = .busy (operands 0x09 0x2000 0x3000 4 0 0 0) ∧
    (running (operands 0x09 0x2000 0x3000 4 0 0 0) t.mem).mem = t.mem ∧
    (operands 0x09 0x2000 0x3000 4 0 0 0).src = (operands 0x08 0x1000 0x2000 1 0 0 0).dst ∧
    (operands 0x09 0x2000 0x3000 4 0 0 0).len = BitVec.ofNat 32 (4 * ((1 + 2) / 3)) ∧
    rangesClear (decodeJob (operands 0x09 0x2000 0x3000 4 0 0 0)) ∧
    rangesBacked (running (operands 0x09 0x2000 0x3000 4 0 0 0) t.mem).platform
      (decodeJob (operands 0x09 0x2000 0x3000 4 0 0 0)) :=
  ⟨_, rfl, by decide, by decide, rfl, rfl, rfl, rfl, rfl, rfl, rfl, by unfold rangesClear; decide,
    plain_backs _ (by decide)⟩

theorem witness_EncodedTextIsBlockwiseEnc12 : ∃ t,
    (group 0x04 1 2 3).phase = .busy (operands 0x04 0 0 0 1 2 3) ∧ exec .enc12 (group 0x04 1 2 3) = .next t :=
  ⟨_, rfl, rfl⟩

/-- One source byte at 0x1000 and at 0x1001. -/
theorem witness_AlignmentIsNotObservable : ∃ t t' : State,
    (buffer 0x08 1 [0x41]).phase = .busy (operands 0x08 0x1000 0x2000 1 0 0 0) ∧
    (running (operands 0x08 0x1001 0x2000 1 0 0 0) (writeBytes [] 0x1001 [0x41])).phase =
      .busy (operands 0x08 0x1001 0x2000 1 0 0 0) ∧
    Memory.wf (buffer 0x08 1 [0x41]).mem = true ∧ Memory.wf (writeBytes [] 0x1001 [0x41]) = true ∧
    rangesClear (encodeJob (operands 0x08 0x1000 0x2000 1 0 0 0)) ∧
    rangesClear (encodeJob (operands 0x08 0x1001 0x2000 1 0 0 0)) ∧
    rangesBacked plain (encodeJob (operands 0x08 0x1000 0x2000 1 0 0 0)) ∧
    rangesBacked plain (encodeJob (operands 0x08 0x1001 0x2000 1 0 0 0)) ∧
    (∀ k, k < 1 → byteAt (running (operands 0x08 0x1001 0x2000 1 0 0 0) (writeBytes [] 0x1001 [0x41])) 0x1001 k =
      byteAt (buffer 0x08 1 [0x41]) 0x1000 k) ∧
    exec .encode (buffer 0x08 1 [0x41]) = .next t ∧
    exec .encode (running (operands 0x08 0x1001 0x2000 1 0 0 0) (writeBytes [] 0x1001 [0x41])) = .next t' :=
  ⟨_, _, rfl, rfl, by decide, by decide, by unfold rangesClear; decide, by unfold rangesClear; decide,
    plain_backs _ (by decide), plain_backs _ (by decide), by decide, rfl, rfl⟩

theorem witness_SuccessfulBufferCommandsObeyTheLengthLaws :
    gives (exec .encode (buffer 0x08 1 [0x41])) (fun t => t.phase == .idle && t.status == 2) = true ∧
    Memory.wf (buffer 0x08 1 [0x41]).mem = true ∧
    gives (exec .decode (buffer 0x09 4 [0x51, 0x55, 0x49, 0x3D])) (fun t => t.phase == .idle && t.status == 2) = true := by
  decide

theorem witness_OnlyDecodeOperationsFail :
    (group 0x45 0x3D3D3D41 0 0).phase = .busy (operands 0x45 0 0 0 0x3D3D3D41 0 0) ∧ (group 0x45 0x3D3D3D41 0 0).status = 1 ∧
    gives (exec (.dec4 true) (group 0x45 0x3D3D3D41 0 0)) (fun t => failFlag t.status) = true ∧
    gives (exec (.dec8 true) (group 0x46 0x3D3D3D41 0 0)) (fun t => failFlag t.status) = true ∧
    gives (exec .decode (buffer 0x09 3 [])) (fun t => failFlag t.status) = true := by decide

theorem witness_ProgrammerErrorsChangeOnlyStatusAndOutlen :
    (buffer 0x08 0 []).phase = .busy (operands 0x08 0x1000 0x2000 0 0 0 0) ∧ (buffer 0x08 0 []).status = 1 ∧
    gives (exec .encode (buffer 0x08 0 [])) (fun t => perrFlag t.status) = true := by decide

theorem witness_EngineWritesOnlyTheDestination :
    (∃ t, exec .enc12 (group 0x04 1 2 3) = .next t) ∧ (∃ t, exec .encode (buffer 0x08 1 [0x41]) = .next t) ∧
    (∃ t, exec .decode (buffer 0x09 4 [0x51, 0x55, 0x49, 0x3D]) = .next t) ∧
    (∃ t, step (withTurns [.engineAccess] (buffer 0x08 1 [0x41])) = .next t) ∧
    (∃ t, step (withTurns [.engineAccess] (buffer 0x09 4 [0x41])) = .next t) ∧
    (∃ t, step (withTurns [.engineAccess] (group 0x01 0 0 0)) = .next t) :=
  ⟨⟨_, rfl⟩, ⟨_, rfl⟩, ⟨_, rfl⟩, ⟨_, rfl⟩, ⟨_, rfl⟩, ⟨_, rfl⟩⟩

theorem witness_ResetClearsTheBlockAndAbandonsTheCommand :
    ((withTurns [.reset] (buffer 0x08 1 [])).turns = .reset :: [] ∧
      (withTurns [.reset] (buffer 0x08 1 [])).phase = .busy (operands 0x08 0x1000 0x2000 1 0 0 0) ∧
      decode (operands 0x08 0x1000 0x2000 1 0 0 0).cw = .instr .encode ∧
      4 = 4 * (((operands 0x08 0x1000 0x2000 1 0 0 0).len.toNat + 2) / 3) ∧
      Memory.wf (withTurns [.reset] (buffer 0x08 1 [])).mem = true ∧
      (operands 0x08 0x1000 0x2000 1 0 0 0).dst.toNat + 3 < 4294967296) ∧
    ((withTurns [.reset] (buffer 0x09 7 [])).phase = .busy (operands 0x09 0x1000 0x2000 7 0 0 0) ∧
      decode (operands 0x09 0x1000 0x2000 7 0 0 0).cw = .instr .decode ∧
      3 = 3 * ((operands 0x09 0x1000 0x2000 7 0 0 0).len.toNat / 4)) ∧
    (withTurns [.reset] quiet).phase = .idle := by decide

theorem witness_EveryStepKeepsTheInvariant :
    (∃ t, (buffer 0x08 1 [0x41]).inv = true ∧ step (buffer 0x08 1 [0x41]) = .next t) ∧
    ∃ t, (withTurns [.write 32 0x00 0x09] quiet).inv = true ∧ step (withTurns [.write 32 0x00 0x09] quiet) = .next t :=
  ⟨⟨_, by decide, rfl⟩, _, by decide, rfl⟩

/-- A script whose second line carries the label 7 and none the label 8; each branch taken and not taken; a bit index of
31, and of 32, which names no bit. -/
theorem witness_BranchLinesOnlyMoveTheScript :
    ([Line.halt, .label 7][1]? = some (.label 7) ∧ ∀ m, m < 1 → [Line.halt, .label 7][m]? ≠ some (.label 7)) ∧
    Line.label 8 ∉ [Line.halt, .label 7] ∧
    (true = (tempValue (setTemp 3 0x80000000 quiet) 3).getLsbD 31 ∧
      false = (tempValue (setTemp 3 0xFFFFFFFF quiet) 3).getLsbD 32) ∧
    (true = decide (tempValue quiet 3 = 0) ∧ false = decide (tempValue quiet 3 = 1)) ∧
    (true = decide (tempValue quiet 3 ≠ 1) ∧ false = decide (tempValue quiet 3 ≠ 0)) := by decide

/-- A script of one poll, before an Idle and before a Busy Engine. -/
theorem witness_PollLoopsWhileBusy :
    ∀ s ∈ [quiet, group 0x01 0 0 0],
      ({ s with host := { s.host with script := poll 1 2 }, turns := [.script, .script, .script] } : State).host.script =
        [] ++ poll 1 2 ++ [] ∧ Line.label 1 ∉ ([] : List Line) ∧ s.host.line = ([] : List Line).length ∧
      sparseWf unwrittenTemp s.host.temps = true := by
  intro s hs
  fin_cases hs <;> decide

end Sys2Proof.Tests
end

section
/-! ## A Host's register accesses (10_state.md R21 to R28)

A listed turn is taken first; an access at the offset of a register reaches that register, and any other is refused. -/

namespace Sys2Proof.Machine

/-! ### The turn of a step (log 4) -/

theorem step_listed {s : State} {turn : Turn} {rest : List Turn} (h : s.turns = turn :: rest) :
    step s = takeTurn turn { s with turns := rest } := by rw [step, h]

theorem step_unlisted {s : State} (h : s.turns = []) : step s = ownTurn s := by rw [step, h]

/-! ### Which accesses are admitted (R22 (a), (b)) -/

theorem accessed_of_width_ne {width : Nat} (offset : BitVec 6) (h : width ≠ 32) :
    accessed width offset = .error .accessWidth := by rw [accessed, if_pos h]

theorem accessed_misaligned {offset : BitVec 6} (h : offset.toNat % 4 ≠ 0) :
    accessed 32 offset = .error .misalignedAccess := by rw [accessed, if_neg (by decide), if_pos h]

theorem accessed_reserved {offset : BitVec 6} (h : offset = 0x34 ∨ offset = 0x38 ∨ offset = 0x3C) :
    accessed 32 offset = .error .reservedOffset := by rcases h with rfl | rfl | rfl <;> rfl

/-- A bus access, read or write, whose admission fails is refused by the name the admission gives. -/
theorem step_of_accessed_error {s : State} {width : Nat} {offset : BitVec 6} {v : Word} {k : Nat} {rest : List Turn}
    {e : Refusal} (h : s.turns = .write width offset v :: rest ∨ s.turns = .read width offset k :: rest)
    (he : accessed width offset = .error e) : step s = .refused e := by
  rcases h with h | h <;> rw [step_listed h, takeTurn]
  · rw [busWrite, he]
  · rw [busRead, he]

/-! ### Accesses at the offset of a register -/

theorem step_write_register {s : State} {r : Reg} {v : Word} {rest : List Turn}
    (h : s.turns = .write 32 (regOffset r) v :: rest) : step s = writeReg r v { s with turns := rest } := by
  rw [step_listed h, takeTurn, busWrite, regAt_regOffset]

theorem step_read_register {s : State} {r : Reg} {k : Nat} {rest : List Turn}
    (h : s.turns = .read 32 (regOffset r) k :: rest) : step s = .next (readReg r k { s with turns := rest }) := by
  rw [step_listed h, takeTurn, busRead, regAt_regOffset]

theorem writeReg_cmd_of_idle {s : State} (v : Word) (h : s.phase = .idle) :
    writeReg .cmd v s = .next (issue v s) := by
  rw [writeReg, h, latchOf]

theorem readResult_of_idle {s : State} (v : Word) (k : Nat) (h : s.phase = .idle) :
    readResult v k s = setTemp k v s := by
  rw [readResult, h, latchOf]

theorem readReg_of_idle {s : State} (r : Reg) (k : Nat) (h : s.phase = .idle) :
    readReg r k s = setTemp k (regValue s r) s := by
  cases r with
  | outlen => exact readResult_of_idle _ k h
  | dout i => exact readResult_of_idle _ k h
  | _ => rfl

/-- Settles O15: the read leaves the register's value in the temporary, and nothing else moves. -/
theorem idleReadsReturnTheRegister : Obligations.IdleReadsReturnTheRegister := by
  refine ⟨rfl, fun s r k rest hp hw ht => ?_⟩
  have hread : readReg r k { s with turns := rest } = setTemp k (regValue s r) { s with turns := rest } := by
    rw [readReg_of_idle (s := { s with turns := rest }) r k hp]
    cases r <;> rfl
  refine ⟨setTemp k (regValue s r) { s with turns := rest }, ?_, ?_, ?_, rfl⟩
  · rw [step_read_register ht, hread]
  · exact tempValue_setTemp_self k _ _ hw
  · exact fun j hj => tempValue_setTemp_ne k j _ _ hj

/-- Settles O8: offset 0 is CMD, and a write to it while Idle is an issue. -/
theorem cmdWriteIssuesAndLatches : Obligations.CmdWriteIssuesAndLatches := by
  intro s w rest hp ht
  rw [step_write_register (r := .cmd) ht, writeReg_cmd_of_idle (s := { s with turns := rest }) w hp]
  rfl

/-- Settles O14: one failed admission per clause. -/
theorem inadmissibleRegisterAccessesAreRefused : Obligations.InadmissibleRegisterAccessesAreRefused := by
  refine fun s width offset v k rest ht => ⟨fun hw => ?_, ?_, ?_⟩
  · exact step_of_accessed_error ht (accessed_of_width_ne offset hw)
  · rintro rfl ho
    exact step_of_accessed_error ht (accessed_misaligned ho)
  · rintro rfl ho
    exact step_of_accessed_error ht (accessed_reserved ho)

/-- Settles O17: the write reaches the register its offset names, whatever the phase. -/
theorem registerWritesStoreOrAreIgnored : Obligations.RegisterWritesStoreOrAreIgnored := by
  intro s r v rest ht
  rw [step_write_register ht]
  refine ⟨?_, ?_, ?_, ?_, ?_⟩
  · rintro rfl; rfl
  · rintro rfl; rfl
  · rintro rfl; rfl
  · rintro i rfl; rfl
  · rintro (rfl | rfl | ⟨i, rfl⟩) <;> rfl

/-! ### The state after reset -/

/-- A byte for which REV holds a value is the character of that value (40_lookup.md R102). -/
theorem fwd_of_revIndex {b : Byte} {i : Sextet} (h : revIndex b = some i) : fwd i = b := by
  rw [revIndex_eq] at h
  split_ifs at h with hb
  cases h
  obtain ⟨hchar, hlt⟩ := alphabetChar_value b hb
  apply BitVec.eq_of_toNat_eq
  rw [fwd_toNat, BitVec.toNat_ofNat, Nat.mod_eq_of_lt hlt, hchar]

theorem rev_fwd (p : Platform) (i : Sextet) : rev p (fwd i) = i.setWidth 8 := by
  rw [rev, revIndex_fwd]

/-- A byte that is no character of FWD reads as the sentinel (R101). -/
theorem rev_of_not_fwd (p : Platform) {b : Byte} (h : ∀ i : Sextet, fwd i ≠ b) : rev p b = revSentinel p := by
  cases hb : revIndex b with
  | none => rw [rev, hb]
  | some i => exact absurd (fwd_of_revIndex hb) (h i)

/-- Settles O50: the registers by definition, the tables by their laws, which hold on every platform. -/
theorem resetStateHasEveryRegisterZero : Obligations.ResetStateHasEveryRegisterZero := by
  refine ⟨rfl, rfl, rfl, rfl, rfl, rfl, rfl, rfl, ?_, ?_, ?_, ?_⟩
  · exact fun k => tempValue_setTemp_self k 0 State.reset rfl
  · exact fwd_toNat
  · exact rev_fwd _
  · exact fun b => rev_of_not_fwd _

end Sys2Proof.Machine
end

section
/-! ## The invariant (10_state.md R24, R27, R35; 20_memory.md R50)

What the invariant says in each phase, how a command can end, and that each turn keeps the invariant. -/

namespace Sys2Proof.Machine

/-! ### What the invariant says -/

/-- The upper bound of the progress position: the size of the destination, 0 for a command without one (R35). -/
def progressBound (l : Latched) : Nat := ((jobOf l).map Job.outMax).getD 0

/-- The two sparse lists have their canonical form, memory within its space. -/
def storesWf (s : State) : Prop := Memory.wf s.mem = true ∧ sparseWf unwrittenTemp s.host.temps = true

theorem inv_iff (s : State) : s.inv = true ↔
    (statusAgrees s = true ∧ outlenAgrees s = true ∧ progressAgrees s = true) ∧ storesWf s := by
  simp [State.inv, storesWf, and_assoc]

theorem inv_idle_iff {s : State} (hp : s.phase = .idle) : s.inv = true ↔
    s.status ∈ idleStatuses ∧ (s.status = statusOk ∨ s.outlen = 0) ∧ storesWf s := by
  simp [inv_iff, statusAgrees, outlenAgrees, progressAgrees, hp, latchOf, and_assoc]

theorem inv_busy_iff {s : State} {l : Latched} (hp : s.phase = .busy l) : s.inv = true ↔
    s.status = statusBusy ∧ l.progress ≤ progressBound l ∧ storesWf s := by
  simp [inv_iff, statusAgrees, outlenAgrees, progressAgrees, hp, latchOf, progressBound, statusBusy, and_assoc]

theorem inv_stuck_iff {s : State} {l : Latched} (hp : s.phase = .stuck l) : s.inv = true ↔
    s.status = statusBusy ∧ (jobOf l).isSome = true ∧ l.progress ≤ progressBound l ∧ storesWf s := by
  simp [inv_iff, statusAgrees, outlenAgrees, progressAgrees, hp, latchOf, progressBound, statusBusy, and_assoc]

/-- The registers and the phase alone decide the rest of the invariant, so a state that differs in its stores needs
only these to be canonical. -/
theorem inv_of_same_registers {s t : State} (h : s.inv = true) (hs : t.status = s.status) (ho : t.outlen = s.outlen)
    (hp : t.phase = s.phase) (hw : storesWf s → storesWf t) : t.inv = true := by
  rw [inv_iff] at h ⊢
  obtain ⟨hc, hst⟩ := h
  refine ⟨?_, hw hst⟩
  simpa only [statusAgrees, outlenAgrees, progressAgrees, hs, ho, hp] using hc

/-! ### How a running command can end -/

/-- A state that differs in the results a command computes alone: memory, DOUT and the count of free values. Memory
stays canonical. -/
structure OnlyResults (s u : State) : Prop where
  frame : u = { s with mem := u.mem, dout := u.dout, draws := u.draws }
  memWf : Memory.wf s.mem = true → Memory.wf u.mem = true

/-- `t` is `u` after one of the three completions (60_exceptions.md R201 to R203). -/
def Completes (u t : State) : Prop :=
  ∃ st n, t = { u with status := st, outlen := n, phase := .idle } ∧ st ∈ idleStatuses ∧ (st = statusOk ∨ n = 0)

theorem completes_ok (n : Nat) (u : State) : Completes u (completeOk n u) :=
  ⟨statusOk, BitVec.ofNat 32 n, rfl, by decide, .inl rfl⟩

theorem completes_fail (c : FailCause) (u : State) : Completes u (completeFail c u) :=
  ⟨statusFail c, 0, rfl, by cases c <;> decide, .inr rfl⟩

theorem completes_perr (c : PerrCause) (u : State) : Completes u (completePerr c u) :=
  ⟨statusPerr c, 0, rfl, by cases c <;> decide, .inr rfl⟩

namespace OnlyResults

theorem refl (s : State) : OnlyResults s s := ⟨rfl, id⟩

variable {s u : State}

theorem setDout (h : OnlyResults s u) (i : Fin 4) (v : Word) : OnlyResults s (setDout i v u) :=
  ⟨congrArg (Machine.setDout i v) h.frame, h.memWf⟩

theorem spend (h : OnlyResults s u) (n : Nat) : OnlyResults s (spend n u) :=
  ⟨congrArg (Machine.spend n) h.frame, h.memWf⟩

theorem storeBytes (h : OnlyResults s u) (a : Nat) (bs : List Byte) (ha : a + bs.length ≤ Config.memorySize) :
    OnlyResults s (storeBytes a bs u) :=
  ⟨congrArg (Machine.storeBytes a bs) h.frame, fun hw => writeBytes_wf _ _ _ (h.memWf hw) ha⟩

theorem scramble (h : OnlyResults s u) (a n : Nat) (ha : a + n ≤ Config.memorySize) :
    OnlyResults s (scramble a n u) :=
  (h.storeBytes a (freeBytes u.draws n) (by simpa using ha)).spend n

end OnlyResults

/-- A running command that answers `t` has completed with its results, or it is a buffer command and is held, with at
most draws used up (20_memory.md R58). -/
def CommandEnds (i : Instr) (s : State) (l : Latched) (t : State) : Prop :=
  (∃ u, OnlyResults s u ∧ Completes u t) ∨ ((i = .encode ∨ i = .decode) ∧ ∃ n, t = hang l (spend n s))

theorem commandEnds_ok {i : Instr} {s u : State} {l : Latched} (n : Nat) (h : OnlyResults s u) :
    CommandEnds i s l (completeOk n u) := .inl ⟨u, h, completes_ok n u⟩

theorem commandEnds_fail {i : Instr} {s u : State} {l : Latched} (c : FailCause) (h : OnlyResults s u) :
    CommandEnds i s l (completeFail c u) := .inl ⟨u, h, completes_fail c u⟩

theorem commandEnds_perr {i : Instr} {s : State} {l : Latched} (c : PerrCause) :
    CommandEnds i s l (completePerr c s) := .inl ⟨s, .refl s, completes_perr c s⟩

theorem execEnc3_ends {n : BitVec 2} {s t : State} {l : Latched} (hp : s.phase = .busy l)
    (h : execEnc3 n s = .next t) : CommandEnds (.enc3 n) s l t := by
  rw [execEnc3, onCommand_busy hp] at h
  split at h <;> cases h
  · exact commandEnds_perr _
  · exact commandEnds_ok _ (.setDout (.refl s) _ _)

theorem execDec4_ends {f : Bool} {s t : State} {l : Latched} (hp : s.phase = .busy l)
    (h : execDec4 f s = .next t) : CommandEnds (.dec4 f) s l t := by
  rw [execDec4, onCommand_busy hp] at h
  split at h <;> cases h
  · exact commandEnds_fail _ (.spend (.setDout (.refl s) _ _) _)
  · exact commandEnds_ok _ (.setDout (.refl s) _ _)

theorem rejectDec8_ends {i : Instr} (c : FailCause) (s : State) (l : Latched) :
    CommandEnds i s l (rejectDec8 c s) :=
  commandEnds_fail _ (.spend (.setDout (.setDout (.refl s) _ _) _ _) _)

theorem execDec8_ends {f : Bool} {s t : State} {l : Latched} (hp : s.phase = .busy l)
    (h : execDec8 f s = .next t) : CommandEnds (.dec8 f) s l t := by
  rw [execDec8, onCommand_busy hp] at h
  split at h
  · cases h; exact rejectDec8_ends _ _ _
  · split at h <;> cases h
    · exact rejectDec8_ends _ _ _
    · exact commandEnds_ok _ (.setDout (.setDout (.refl s) _ _) _ _)

/-- A range that passes the checks lies in the space (60_exceptions.md R205). -/
theorem dest_within_of_rangeCheck {j : Job} (h : rangeCheck j = none) : j.dst + j.outMax ≤ Config.memorySize :=
  ((rangeCheck_eq_none j).1 h).2.1

theorem execEncode_ends {s t : State} {l : Latched} (hp : s.phase = .busy l) (h : execEncode s = .next t) :
    CommandEnds .encode s l t := by
  rcases execEncode_cases s l hp with ⟨c, h'⟩ | ⟨r, -, h'⟩ | h' | ⟨-, hr, -, h'⟩ <;> cases h'.symm.trans h
  · exact commandEnds_perr c
  · exact .inr ⟨.inl rfl, 0, rfl⟩
  · refine commandEnds_ok _ (.storeBytes (.refl s) _ _ ?_)
    rw [encodeText_length, readBytes_length]
    exact dest_within_of_rangeCheck hr

/-- The decoded bytes and the padding of an accepted text fill the destination (43_buffer.md R180, R182). -/
theorem decodeText_accepted_size {p : Platform} {m : Memory} {l : Latched} {bytes : List Byte} {pad : Nat}
    (hb : badDecodeLength l.len.toNat = false)
    (h : decodeText p (readBytes m (decodeJob l).src (decodeJob l).len) = .accepted bytes pad) :
    bytes.length = (decodeJob l).outMax - pad ∧ pad ≤ (decodeJob l).outMax := by
  have hlen : (readBytes m (decodeJob l).src (decodeJob l).len).length = l.len.toNat := readBytes_length _ _ _
  obtain ⟨hne, hmod⟩ := (badDecodeLength_eq_false _).1 hb
  obtain ⟨-, hlast, hbytes, -⟩ := decodeText_accepted p _ bytes pad h (hlen ▸ hmod) (hlen ▸ hne)
  have hpad := (legal4_shape _ _ _ hlast).1
  rw [hlen] at hbytes
  refine ⟨hbytes, ?_⟩
  simp only [decodeJob, decMax]
  omega

theorem decodeData_ends {s : State} {l : Latched} (hb : badDecodeLength l.len.toNat = false)
    (hr : rangeCheck (decodeJob l) = none) : CommandEnds .decode s l (decodeData l (decodeJob l) s) := by
  have hin := dest_within_of_rangeCheck hr
  rcases decodeData_cases l (decodeJob l) s with h | ⟨pos, c, -, h⟩ | ⟨bytes, pad, ht, h⟩ <;> rw [h]
  · exact .inr ⟨.inr rfl, 1, rfl⟩
  · exact commandEnds_fail c (.scramble (.spend (.refl s) 1) _ _ hin)
  · obtain ⟨hlen, hpad⟩ := decodeText_accepted_size hb ht
    refine commandEnds_ok _ (.scramble (.spend (.storeBytes (.refl s) _ _ ?_) 1) _ _ ?_)
    · omega
    · omega

theorem execDecode_ends {s t : State} {l : Latched} (hp : s.phase = .busy l) (h : execDecode s = .next t) :
    CommandEnds .decode s l t := by
  rcases execDecode_cases s l hp with ⟨-, h'⟩ | ⟨c, h'⟩ | ⟨r, -, h'⟩ | ⟨hb, hr, -, h'⟩ <;> cases h'.symm.trans h
  · exact commandEnds_fail _ (.refl s)
  · exact commandEnds_perr c
  · exact decodeData_ends hb hr

/-- Every running command that answers a next state ends as `CommandEnds` says. -/
theorem exec_ends {i : Instr} {s t : State} {l : Latched} (hp : s.phase = .busy l) (h : exec i s = .next t) :
    CommandEnds i s l t := by
  cases i with
  | flookup =>
    rw [exec, execFlookup, onCommand_busy hp] at h
    cases h
    exact commandEnds_ok _ (.setDout (.refl s) _ _)
  | rlookup =>
    rw [exec, execRlookup, onCommand_busy hp] at h
    cases h
    exact commandEnds_ok _ (.setDout (.refl s) _ _)
  | enc3 n => exact execEnc3_ends hp h
  | enc12 =>
    rw [exec, execEnc12, onCommand_busy hp] at h
    cases h
    exact commandEnds_ok _ ⟨rfl, id⟩
  | dec4 f => exact execDec4_ends hp h
  | dec8 f => exact execDec8_ends hp h
  | aclass dir =>
    rw [exec, execAclass, onCommand_busy hp] at h
    cases h
    exact commandEnds_ok _ (.setDout (.refl s) _ _)
  | encode => exact execEncode_ends hp h
  | decode => exact execDecode_ends hp h

/-! ### The Engine's turns keep the invariant -/

theorem inv_of_completes {s u t : State} (h : s.inv = true) (hu : OnlyResults s u) (ht : Completes u t) :
    t.inv = true := by
  obtain ⟨-, hm, htemps⟩ := (inv_iff s).1 h
  obtain ⟨st, n, rfl, hst, hn⟩ := ht
  have hhost : u.host = s.host := by rw [hu.frame]
  exact (inv_idle_iff rfl).2 ⟨hst, hn, hu.memWf hm, by rw [hhost]; exact htemps⟩

/-- A command that has a job is held with the invariant kept. -/
theorem inv_hang {s : State} {l : Latched} (h : s.inv = true) (hp : s.phase = .busy l)
    (hj : (jobOf l).isSome = true) (n : Nat) : (hang l (spend n s)).inv = true := by
  obtain ⟨hs, hprog, hw⟩ := (inv_busy_iff hp).1 h
  exact (inv_stuck_iff rfl).2 ⟨hs, hj, hprog, hw⟩

/-- ENCODE and DECODE have a job (20_memory.md R56). -/
theorem jobOf_isSome {l : Latched} {i : Instr} (hd : decode l.cw = .instr i) (hi : i = .encode ∨ i = .decode) :
    (jobOf l).isSome = true := by
  rcases hi with rfl | rfl <;> simp [jobOf, hd]

theorem inv_engineTurn {s t : State} (h : s.inv = true) (ht : engineTurn s = .next t) : t.inv = true := by
  cases hp : s.phase with
  | idle => simp only [engineTurn, hp] at ht; cases ht; exact h
  | stuck l => simp only [engineTurn, hp] at ht; cases ht; exact h
  | busy l =>
    cases hd : decode l.cw with
    | illegal why =>
      simp only [engineTurn, hp, hd] at ht
      cases ht
      exact inv_of_completes h (.refl s) (completes_perr _ s)
    | instr i =>
      simp only [engineTurn, hp, hd] at ht
      rcases exec_ends hp ht with ⟨u, hu, hc⟩ | ⟨hi, n, rfl⟩
      · exact inv_of_completes h hu hc
      · exact inv_hang h hp (jobOf_isSome hd hi) n

theorem progressBound_of_jobOf {l : Latched} {j : Job} (h : jobOf l = some j) : progressBound l = j.outMax := by
  rw [progressBound, h]; rfl

/-- The access goes to a byte below the end of the destination, so it stays in the space and the progress position in
its range (R35). -/
theorem inv_engineAccess {s : State} (h : s.inv = true) : (engineAccess s).inv = true := by
  rcases engineAccess_cases s with he | ⟨l, j, hp, hj, hr, hlt, he⟩ <;> rw [he]
  · exact h
  · obtain ⟨hs, -, hm, htemps⟩ := (inv_busy_iff hp).1 h
    have hin := dest_within_of_rangeCheck hr
    have hbound : progressBound { l with progress := l.progress + 1 } = j.outMax :=
      progressBound_of_jobOf (jobOf_of_lengthOkJob l j hj)
    refine (inv_busy_iff rfl).2 ⟨hs, ?_, scramble_wf _ _ _ hm (by omega), htemps⟩
    rw [hbound]
    exact hlt

/-! ### Turns of the Hosts and of reset keep the invariant -/

theorem inv_setTemp {s : State} (h : s.inv = true) (k : Nat) (v : Word) : (setTemp k v s).inv = true :=
  inv_of_same_registers h rfl rfl rfl fun ⟨hm, ht⟩ => ⟨hm, sparseSet_wf _ _ _ ht⟩

theorem inv_issue {s : State} (h : s.inv = true) (w : Word) : (issue w s).inv = true :=
  (inv_busy_iff rfl).2 ⟨rfl, Nat.zero_le _, ((inv_iff s).1 h).2⟩

/-- A write to CMD issues, and every other register write changes nothing that the invariant speaks of. -/
theorem inv_writeReg {r : Reg} {v : Word} {s t : State} (h : s.inv = true) (ht : writeReg r v s = .next t) :
    t.inv = true := by
  cases r with
  | cmd =>
    rw [writeReg] at ht
    split at ht <;> cases ht
    exact inv_issue h v
  | _ => cases ht; exact h

theorem inv_busWrite {width : Nat} {offset : BitVec 6} {v : Word} {s t : State} (h : s.inv = true)
    (ht : busWrite width offset v s = .next t) : t.inv = true := by
  rw [busWrite] at ht
  split at ht
  · exact inv_writeReg h ht
  · cases ht

theorem inv_busRead {width : Nat} {offset : BitVec 6} {k : Nat} {s t : State} (h : s.inv = true)
    (ht : busRead width offset k s = .next t) : t.inv = true := by
  rw [busRead] at ht
  split at ht
  next r _ =>
    cases ht
    obtain ⟨v, n, hshape⟩ := readReg_shape r k s
    rw [hshape]
    exact inv_setTemp h k v
  next => cases ht

theorem inv_foreignWrite {a : Word} {v : Byte} {s t : State} (h : s.inv = true)
    (ht : foreignWrite a v s = .next t) : t.inv = true := by
  rw [foreignWrite] at ht
  split_ifs at ht
  cases ht
  exact inv_of_same_registers h rfl rfl rfl fun ⟨hm, htemps⟩ => ⟨writeByte_wf _ _ _ hm a.isLt, htemps⟩

theorem inv_foreignRead {a : Word} {k : Nat} {s t : State} (h : s.inv = true)
    (ht : foreignRead a k s = .next t) : t.inv = true := by
  rw [foreignRead] at ht
  split_ifs at ht <;> cases ht
  · exact inv_setTemp h k _
  · exact inv_setTemp h k _

/-- A branch that answers a next state has moved the script to another line and done nothing else (30_encoding.md
R77). -/
theorem branch_next {taken : Bool} {target : Nat} {s t : State} (h : branch taken target s = .next t) :
    ∃ n, t = atLine n s := by
  rw [branch, jumpTo] at h
  split at h
  · split at h <;> cases h
    exact ⟨_, rfl⟩
  · cases h
    exact ⟨_, rfl⟩

theorem inv_branch {taken : Bool} {target : Nat} {s t : State} (h : s.inv = true)
    (ht : branch taken target s = .next t) : t.inv = true := by
  obtain ⟨n, rfl⟩ := branch_next ht
  exact h

theorem inv_runLine {line : Line} {s t : State} (h : s.inv = true) (ht : runLine line s = .next t) :
    t.inv = true := by
  cases line with
  | wr r v => exact inv_busWrite (s := nextLine s) h ht
  | rd r k => exact inv_busRead (s := nextLine s) h ht
  | btst k i target => exact inv_branch h ht
  | beq k v target => exact inv_branch h ht
  | bne k v target => exact inv_branch h ht
  | jmp target => exact inv_branch (taken := true) h ht
  | halt => cases ht; exact h
  | label name => cases ht; exact h

theorem inv_scriptTurn {s t : State} (h : s.inv = true) (ht : scriptTurn s = .next t) : t.inv = true := by
  rw [scriptTurn] at ht
  split at ht
  · exact inv_runLine h ht
  · cases ht; exact h

theorem abandonBuffers_host (s : State) : (abandonBuffers s).host = s.host := by
  rw [abandonBuffers]
  split <;> rfl

/-- The destination of an abandoned command starts in the space. -/
theorem activeJob_dst_lt {s : State} {j : Job} (h : activeJob s = some j) : j.dst < Config.memorySize := by
  obtain ⟨l, -, hj⟩ := Option.bind_eq_some_iff.1 h
  rw [jobOf] at hj
  split at hj <;> cases hj
  · exact l.dst.isLt
  · exact l.dst.isLt

theorem abandonBuffers_wf {s : State} (h : Memory.wf s.mem = true) : Memory.wf (abandonBuffers s).mem = true := by
  rw [abandonBuffers]
  split
  next j hj =>
    have := activeJob_dst_lt hj
    exact scramble_wf _ _ _ h (by omega)
  next => exact h

theorem inv_resetEngine {s : State} (h : s.inv = true) : (resetEngine s).inv = true := by
  obtain ⟨-, hm, htemps⟩ := (inv_iff s).1 h
  rw [← abandonBuffers_host s] at htemps
  exact (inv_idle_iff rfl).2 ⟨(by decide : (0 : Word) ∈ idleStatuses), .inr rfl, abandonBuffers_wf hm, htemps⟩

/-! ### Every step keeps the invariant -/

theorem inv_takeTurn {turn : Turn} {s t : State} (h : s.inv = true) (ht : takeTurn turn s = .next t) :
    t.inv = true := by
  cases turn with
  | engine => exact inv_engineTurn h ht
  | engineAccess => cases ht; exact inv_engineAccess h
  | script => exact inv_scriptTurn h ht
  | write width offset v => exact inv_busWrite h ht
  | read width offset k => exact inv_busRead h ht
  | memWrite a v => exact inv_foreignWrite h ht
  | memRead a k => exact inv_foreignRead h ht
  | reset => cases ht; exact inv_resetEngine h

theorem inv_ownTurn {s t : State} (h : s.inv = true) (ht : ownTurn s = .next t) : t.inv = true := by
  rw [ownTurn] at ht
  split at ht
  · exact inv_engineTurn h ht
  · exact inv_scriptTurn h ht
  · exact inv_scriptTurn h ht

/-- Settles O53: a listed turn keeps the invariant, which does not speak of the list, and so does the turn that falls
due when none is listed. -/
theorem everyStepKeepsTheInvariant : Obligations.EveryStepKeepsTheInvariant := by
  intro s t h ht
  cases hs : s.turns with
  | nil => rw [step_unlisted hs] at ht; exact inv_ownTurn h ht
  | cons turn rest =>
    rw [step_listed hs] at ht
    exact inv_takeTurn (s := { s with turns := rest }) h ht

/-- Settles O52. -/
theorem invariantHoldsAtReset : Obligations.InvariantHoldsAtReset :=
  (inv_idle_iff rfl).2 ⟨by decide, .inr rfl, rfl, rfl⟩

end Sys2Proof.Machine
end

section
/-! ## The operand registers and a running command (10_state.md R26, R33, R35; 70_reset_and_hazards.md R244)

A command reads the latched copies alone, so its meaning commutes with other values in SRC, DST, LEN and DIN; and it
writes neither these nor what is not the Engine's. -/

namespace Sys2Proof.Machine

/-! ### No command writes the operand registers -/

theorem OnlyResults.keeps {s u : State} (h : OnlyResults s u) : sameOperands s u ∧ sameSurroundings s u := by
  rw [h.frame]
  exact ⟨⟨rfl, rfl, rfl, rfl⟩, rfl, rfl, rfl⟩

theorem Completes.keeps {s u t : State} (h : Completes u t) (hu : sameOperands s u ∧ sameSurroundings s u) :
    sameOperands s t ∧ sameSurroundings s t := by
  obtain ⟨st, n, rfl, -, -⟩ := h
  exact hu

theorem CommandEnds.keeps {i : Instr} {s t : State} {l : Latched} (h : CommandEnds i s l t) :
    sameOperands s t ∧ sameSurroundings s t := by
  rcases h with ⟨u, hu, ht⟩ | ⟨-, n, rfl⟩
  · exact ht.keeps hu.keeps
  · exact ⟨⟨rfl, rfl, rfl, rfl⟩, rfl, rfl, rfl⟩

/-- Every meaning is an operation on the latched operands. -/
theorem exec_eq_onCommand (i : Instr) (s : State) : ∃ run, exec i s = onCommand s run := by
  cases i <;> exact ⟨_, rfl⟩

/-- Settles O19: a running command ends as `exec_ends` says, a stuck one changes nothing, and an Idle Engine gives no
next state. -/
theorem noCommandWritesTheOperandRegisters : Obligations.NoCommandWritesTheOperandRegisters := by
  intro i s t h
  obtain ⟨run, hrun⟩ := exec_eq_onCommand i s
  rcases onCommand_next (hrun.symm.trans h) with ⟨l, hp, -⟩ | ⟨l, -, rfl⟩
  · exact (exec_ends hp h).keeps
  · exact ⟨⟨rfl, rfl, rfl, rfl⟩, rfl, rfl, rfl⟩

/-! ### Other values in the operand registers -/

section
variable (src dst len : Word) (din : Vector Word 3) (s : State)

@[simp] theorem withOperands_phase : (withOperands src dst len din s).phase = s.phase := rfl
@[simp] theorem withOperands_platform : (withOperands src dst len din s).platform = s.platform := rfl
@[simp] theorem withOperands_mem : (withOperands src dst len din s).mem = s.mem := rfl

/-- Operations that commute with other operand values on each command run commute as a whole: the phase is the same. -/
theorem onCommand_withOperands {run run' : Latched → Out}
    (h : ∀ l, run' l = mapNext (withOperands src dst len din) (run l)) :
    onCommand (withOperands src dst len din s) run' = mapNext (withOperands src dst len din) (onCommand s run) := by
  rw [onCommand, onCommand, withOperands_phase]
  cases s.phase with
  | idle => rfl
  | stuck l => rfl
  | busy l => exact h l

theorem dataPhase_withOperands (j : Job) {run run' : Out} (h : run' = mapNext (withOperands src dst len din) run) :
    dataPhase (withOperands src dst len din s) j run' =
      mapNext (withOperands src dst len din) (dataPhase s j run) := by
  rw [dataPhase, dataPhase, withOperands_platform]
  cases rangeCheck j with
  | some c => rfl
  | none =>
    cases platformRefusal s.platform j with
    | some r => rfl
    | none => exact h

theorem rejectDecode_withOperands (l : Latched) (j : Job) (pos : Nat) (c : FailCause) :
    rejectDecode l j pos c (withOperands src dst len din s) =
      withOperands src dst len din (rejectDecode l j pos c s) := by
  rw [rejectDecode, rejectDecode, apply_ite (withOperands src dst len din)]
  rfl

theorem acceptDecode_withOperands (l : Latched) (j : Job) (bytes : List Byte) (pad : Nat) :
    acceptDecode l j bytes pad (withOperands src dst len din s) =
      withOperands src dst len din (acceptDecode l j bytes pad s) := by
  rw [acceptDecode, acceptDecode, apply_ite (withOperands src dst len din)]
  rfl

theorem decodeData_withOperands (l : Latched) (j : Job) :
    decodeData l j (withOperands src dst len din s) = withOperands src dst len din (decodeData l j s) := by
  rw [decodeData, decodeData, withOperands_platform, withOperands_mem]
  cases decodeText s.platform (readBytes s.mem j.src j.len) with
  | rejected pos c => exact rejectDecode_withOperands src dst len din s l j pos c
  | accepted bytes pad => exact acceptDecode_withOperands src dst len din s l j bytes pad

theorem execEnc3_withOperands (n : BitVec 2) :
    execEnc3 n (withOperands src dst len din s) = mapNext (withOperands src dst len din) (execEnc3 n s) := by
  refine onCommand_withOperands src dst len din s fun l => ?_
  split
  · rfl
  · rfl

theorem execDec4_withOperands (f : Bool) :
    execDec4 f (withOperands src dst len din s) = mapNext (withOperands src dst len din) (execDec4 f s) := by
  refine onCommand_withOperands src dst len din s fun l => ?_
  cases legal4 (quadOfWord l.din[0]) f with
  | illegal pos => rfl
  | legal pad => rfl

theorem execDec8_withOperands (f : Bool) :
    execDec8 f (withOperands src dst len din s) = mapNext (withOperands src dst len din) (execDec8 f s) := by
  refine onCommand_withOperands src dst len din s fun l => ?_
  cases legal4 (quadOfWord l.din[0]) false with
  | illegal pos => rfl
  | legal _ =>
    cases legal4 (quadOfWord l.din[1]) f with
    | illegal pos => rfl
    | legal pad => rfl

theorem execEncode_withOperands :
    execEncode (withOperands src dst len din s) = mapNext (withOperands src dst len din) (execEncode s) := by
  refine onCommand_withOperands src dst len din s fun l => ?_
  by_cases h0 : l.len = 0
  · simp only [if_pos h0]; rfl
  · simp only [if_neg h0]
    refine dataPhase_withOperands src dst len din s _ ?_
    rw [apply_ite (mapNext (withOperands src dst len din))]
    rfl

theorem execDecode_withOperands :
    execDecode (withOperands src dst len din s) = mapNext (withOperands src dst len din) (execDecode s) := by
  refine onCommand_withOperands src dst len din s fun l => ?_
  by_cases hb : badDecodeLength l.len.toNat = true
  · simp only [if_pos hb]; rfl
  · simp only [if_neg hb]
    refine dataPhase_withOperands src dst len din s _ ?_
    rw [decodeData_withOperands]
    rfl

end

/-- Settles O18, command by command: what each reads is latched, or is no operand register. -/
theorem runningCommandIgnoresTheOperandRegisters : Obligations.RunningCommandIgnoresTheOperandRegisters := by
  intro i s src dst len din
  cases i with
  | flookup => exact onCommand_withOperands src dst len din s fun _ => rfl
  | rlookup => exact onCommand_withOperands src dst len din s fun _ => rfl
  | enc3 n => exact execEnc3_withOperands src dst len din s n
  | enc12 => exact onCommand_withOperands src dst len din s fun _ => rfl
  | dec4 f => exact execDec4_withOperands src dst len din s f
  | dec8 f => exact execDec8_withOperands src dst len din s f
  | aclass dir => exact onCommand_withOperands src dst len din s fun _ => rfl
  | encode => exact execEncode_withOperands src dst len din s
  | decode => exact execDecode_withOperands src dst len din s

end Sys2Proof.Machine
end

section
/-! ## The platform's say about the buffer ranges (20_memory.md R51, R57, R58; log 6, log 7)

When a buffer command reaches its data phase, which addresses the platform forbids or does not back, and what a single
such address in a range does to the command. -/

namespace Sys2Proof.Machine

/-! ### Addresses the platform singles out -/

theorem any_inRegion_iff (rs : List Region) (a : Nat) :
    rs.any (inRegion · a) = true ↔ ∃ r ∈ rs, r.base ≤ a ∧ a < r.base + r.size := by
  simp [inRegion]

theorem ordinary_eq_false_iff (p : Platform) (a : Nat) :
    ordinary p a = false ↔ ∃ r ∈ p.sideEffects, r.base ≤ a ∧ a < r.base + r.size := by
  rw [ordinary, Bool.not_eq_false', any_inRegion_iff]

theorem admitsRead_eq_false_iff (p : Platform) (a : Nat) :
    admitsRead p a = false ↔ ∃ r ∈ p.noRead, r.base ≤ a ∧ a < r.base + r.size := by
  rw [admitsRead, Bool.not_eq_false', any_inRegion_iff]

theorem admitsWrite_eq_false_iff (p : Platform) (a : Nat) :
    admitsWrite p a = false ↔ ∃ r ∈ p.noWrite, r.base ≤ a ∧ a < r.base + r.size := by
  rw [admitsWrite, Bool.not_eq_false', any_inRegion_iff]

/-- One failing address is enough for a range to fail a test. -/
theorem allFrom_eq_false {test : Nat → Bool} {a n x : Nat} (h1 : a ≤ x) (h2 : x < a + n) (hx : test x = false) :
    allFrom test a n = false := by
  rw [← Bool.not_eq_true, allFrom_iff]
  intro h
  rw [h x h1 h2] at hx
  cases hx

/-- One failing address is enough for the two ranges of a buffer command to fail their tests. -/
theorem ranges_eq_false {rd wr : Nat → Bool} {j : Job} {a : Nat}
    (h : (j.src ≤ a ∧ a < j.src + j.len ∧ rd a = false) ∨ (j.dst ≤ a ∧ a < j.dst + j.outMax ∧ wr a = false)) :
    (allFrom rd j.src j.len && allFrom wr j.dst j.outMax) = false := by
  rcases h with ⟨h1, h2, ha⟩ | ⟨h1, h2, ha⟩
  · rw [allFrom_eq_false h1 h2 ha, Bool.false_and]
  · rw [allFrom_eq_false h1 h2 ha, Bool.and_false]

/-- Two intervals meet exactly if they have an address in common: the larger of their starts. -/
theorem meetsRegBlock_iff (p : Platform) (a n : Nat) : meetsRegBlock p a n = true ↔
    ∃ x, (a ≤ x ∧ x < a + n) ∧ 64 * p.regBlock ≤ x ∧ x < 64 * p.regBlock + 64 := by
  simp only [meetsRegBlock, Bool.and_eq_true, decide_eq_true_eq]
  simp only [regBase, Config.regBlockSize]
  constructor
  · rintro ⟨hn, h1, h2⟩
    exact ⟨max a (64 * p.regBlock), by omega, by omega⟩
  · rintro ⟨x, ⟨h1, h2⟩, h3, h4⟩
    omega

/-! ### Why the platform refuses a command -/

/-- An address of one of the two ranges of a buffer command (R56). -/
def inRanges (j : Job) (a : Nat) : Prop := (j.src ≤ a ∧ a < j.src + j.len) ∨ (j.dst ≤ a ∧ a < j.dst + j.outMax)

/-- One of the two ranges meets the register block in a shared space (R51). -/
def overRegBlock (p : Platform) (j : Job) : Prop :=
  p.sharedSpace = true ∧ ∃ a, inRanges j a ∧ 64 * p.regBlock ≤ a ∧ a < 64 * p.regBlock + 64

theorem overRegBlock_iff (p : Platform) (j : Job) : overRegBlock p j ↔
    (p.sharedSpace && (meetsRegBlock p j.src j.len || meetsRegBlock p j.dst j.outMax)) = true := by
  simp only [overRegBlock, inRanges, Bool.and_eq_true, Bool.or_eq_true, meetsRegBlock_iff, or_and_right, exists_or]

theorem platformRefusal_of_overRegBlock {p : Platform} {j : Job} (h : overRegBlock p j) :
    platformRefusal p j = some .registerBlockOverlap := by
  rw [platformRefusal, if_pos ((overRegBlock_iff p j).1 h)]

theorem platformRefusal_of_sideEffect {p : Platform} {j : Job} {a : Nat} (h : ¬ overRegBlock p j) (ha : inRanges j a)
    (ho : ordinary p a = false) : platformRefusal p j = some .sideEffectLocation := by
  have hall : (allFrom (ordinary p) j.src j.len && allFrom (ordinary p) j.dst j.outMax) = false :=
    ranges_eq_false (ha.imp (fun ⟨h1, h2⟩ => ⟨h1, h2, ho⟩) (fun ⟨h1, h2⟩ => ⟨h1, h2, ho⟩))
  rw [platformRefusal, if_neg (mt (overRegBlock_iff p j).2 h), hall]
  rfl

/-! ### Commands that reach their data phase -/

theorem dataPhase_refused {s : State} {j : Job} {r : Refusal} (run : Out) (hc : rangesClear j)
    (hr : platformRefusal s.platform j = some r) : dataPhase s j run = .refused r := by
  rw [dataPhase, (rangeCheck_eq_none j).2 hc, hr]

theorem dataPhase_reached {s : State} {j : Job} (run : Out) (hc : rangesClear j)
    (hr : platformRefusal s.platform j = none) : dataPhase s j run = run := by
  rw [dataPhase, (rangeCheck_eq_none j).2 hc, hr]

theorem exec_encode_eq {s : State} {l : Latched} (hp : s.phase = .busy l) (h0 : 0 < l.len.toNat) :
    exec .encode s = dataPhase s (encodeJob l)
      (if allFrom (admitsRead s.platform) (encodeJob l).src (encodeJob l).len &&
          allFrom (admitsWrite s.platform) (encodeJob l).dst (encodeJob l).outMax then
        .next (completeOk (encodeJob l).outMax
          (storeBytes (encodeJob l).dst (encodeText (readBytes s.mem (encodeJob l).src (encodeJob l).len)) s))
      else .next (hang l s)) := by
  have hne : l.len ≠ 0 := by rintro h; simp [h] at h0
  rw [exec, execEncode, onCommand_busy hp]
  exact if_neg hne

theorem exec_decode_eq {s : State} {l : Latched} (hp : s.phase = .busy l) (h0 : 0 < l.len.toNat)
    (h4 : l.len.toNat % 4 = 0) :
    exec .decode s = dataPhase s (decodeJob l) (.next (decodeData l (decodeJob l) s)) := by
  rw [exec, execDecode, onCommand_busy hp, (badDecodeLength_eq_false _).2 ⟨by omega, h4⟩]
  rfl

/-- A command whose length passes its check goes through the range checks and the platform's refusals. -/
theorem exec_eq_dataPhase {s : State} {l : Latched} {i : Instr} {j : Job} (hp : s.phase = .busy l)
    (h0 : 0 < l.len.toNat)
    (h : (i = .encode ∧ j = encodeJob l) ∨ (i = .decode ∧ l.len.toNat % 4 = 0 ∧ j = decodeJob l)) :
    ∃ run, exec i s = dataPhase s j run := by
  rcases h with ⟨rfl, rfl⟩ | ⟨rfl, h4, rfl⟩
  · exact ⟨_, exec_encode_eq hp h0⟩
  · exact ⟨_, exec_decode_eq hp h0 h4⟩

/-- Settles O39: the ranges are clear, so the platform's refusal is the outcome, the register block asked about first. -/
theorem bufferRangesThePlatformForbidsAreRefused : Obligations.BufferRangesThePlatformForbidsAreRefused := by
  intro s l i j hp h0 hij hc
  have hlen : 0 < l.len.toNat := by rcases hij with ⟨-, rfl⟩ | ⟨-, -, rfl⟩ <;> exact h0
  obtain ⟨run, hrun⟩ := exec_eq_dataPhase hp hlen hij
  refine ⟨fun hover => ?_, fun hover ⟨a, ha, hside⟩ => ?_⟩
  · rw [hrun, dataPhase_refused run hc (platformRefusal_of_overRegBlock hover)]
  · have ho := (ordinary_eq_false_iff s.platform a).2 hside
    rw [hrun, dataPhase_refused run hc (platformRefusal_of_sideEffect hover ha ho)]

/-! ### Accesses the platform does not back -/

/-- ENCODE reads every source byte and writes every destination byte, so one that is not backed holds it (R58). -/
theorem exec_encode_unbacked {s : State} {l : Latched} {a : Nat} (hp : s.phase = .busy l) (h0 : 0 < l.len.toNat)
    (hc : rangesClear (encodeJob l)) (hr : platformRefusal s.platform (encodeJob l) = none)
    (h : ((encodeJob l).src ≤ a ∧ a < (encodeJob l).src + (encodeJob l).len ∧ admitsRead s.platform a = false) ∨
      ((encodeJob l).dst ≤ a ∧ a < (encodeJob l).dst + (encodeJob l).outMax ∧ admitsWrite s.platform a = false)) :
    exec .encode s = .next (hang l s) := by
  rw [exec_encode_eq hp h0, dataPhase_reached _ hc hr, ranges_eq_false h]
  rfl

/-- A rejected text in memory: the position reported is an illegal one of the text (43_buffer.md R180). -/
theorem decodeText_rejected_memory {s : State} {a n pos : Nat} {p : Platform} {c : FailCause} (hn : n % 4 = 0)
    (h : decodeText p (readBytes s.mem a n) = .rejected pos c) :
    pos < n ∧ badTextPosition (byteAt s a) n pos = true := by
  obtain ⟨g, i, rfl, hlen, hleg, -, -⟩ := decodeText_rejected p _ pos c h
  rw [readBytes_length] at hlen hleg
  refine ⟨by omega, ?_⟩
  rw [← illegalAt_textGroup s a n g hn hlen i]
  exact ((legal4_illegal_iff _ _ _).1 hleg).1

/-- DECODE surely reads a character before whose group the text is legal: the failing group, if there is one, is that of
the character or a later one. -/
theorem decodeData_unbacked_read {s : State} {l : Latched} {j : Job} {i : Nat} (h4 : j.len % 4 = 0)
    (hi : i < j.len) (hlegal : ∀ k, k < 4 * (i / 4) → badTextPosition (byteAt s j.src) j.len k = false)
    (ha : admitsRead s.platform (j.src + i) = false) : decodeData l j s = hang l (spend 1 s) := by
  rw [decodeData]
  cases ht : decodeText s.platform (readBytes s.mem j.src j.len) with
  | rejected pos c =>
    obtain ⟨-, hbad⟩ := decodeText_rejected_memory h4 ht
    have hge : 4 * (i / 4) ≤ pos := by
      by_contra hlt
      rw [hlegal pos (by omega)] at hbad
      cases hbad
    exact rejectDecode_unbacked l j pos c s (j.src + i) (by omega) (by omega) ha
  | accepted bytes pad =>
    exact acceptDecode_unbacked l j bytes pad s (j.src + i) (.inl ⟨by omega, by omega, ha⟩)

/-- DECODE of a legal text surely writes its decoded bytes. -/
theorem decodeData_unbacked_write {s : State} {l : Latched} {j : Job} {a : Nat} (h0 : 0 < j.len)
    (h4 : j.len % 4 = 0) (h1 : j.dst ≤ a) (h2 : a < j.dst + (j.outMax - textPad (byteAt s j.src) j.len))
    (hlegal : ∀ k, k < j.len → badTextPosition (byteAt s j.src) j.len k = false)
    (ha : admitsWrite s.platform a = false) : decodeData l j s = hang l (spend 1 s) := by
  rw [decodeData]
  cases ht : decodeText s.platform (readBytes s.mem j.src j.len) with
  | rejected pos c =>
    obtain ⟨hpos, hbad⟩ := decodeText_rejected_memory h4 ht
    rw [hlegal pos hpos] at hbad
    cases hbad
  | accepted bytes pad =>
    obtain ⟨-, hpad, -⟩ := decodeText_accepted_memory s j.src j.len h4 h0 s.platform bytes pad ht
    rw [← hpad] at h2
    exact acceptDecode_unbacked l j bytes pad s a (.inr ⟨h1, h2, ha⟩)

/-- Settles O40: the command reaches its data phase, and there the access is one it surely makes. -/
theorem unbackedAccessLeavesTheEngineStuck : Obligations.UnbackedAccessLeavesTheEngineStuck := by
  intro s l a hp h0
  simp only [← admitsRead_eq_false_iff, ← admitsWrite_eq_false_iff]
  refine ⟨fun hc hr h => exec_encode_unbacked hp h0 hc hr h, fun h4 hc hr h => ?_⟩
  have hstuck : decodeData l (decodeJob l) s = hang l (spend 1 s) := by
    rcases h with ⟨i, hi, rfl, hlegal, ha⟩ | ⟨h1, h2, hlegal, ha⟩
    · exact decodeData_unbacked_read (j := decodeJob l) h4 hi hlegal ha
    · exact decodeData_unbacked_write (j := decodeJob l) h0 h4 h1 h2 hlegal ha
  rw [exec_decode_eq hp h0 h4, dataPhase_reached _ hc hr, hstuck]
  rfl

end Sys2Proof.Machine
end

section
/-! ## What the Engine writes (20_memory.md R50, R56)

Memory changes outside the destination range by no command and by no access before completion. -/

namespace Sys2Proof.Machine

/-! ### Commands without a buffer -/

/-- An operation that keeps memory on every command run keeps it as a whole: a stuck Engine changes nothing. -/
theorem onCommand_mem {s t : State} {run : Latched → Out} (hrun : ∀ l, run l = .next t → t.mem = s.mem)
    (h : onCommand s run = .next t) : t.mem = s.mem := by
  rcases onCommand_next h with ⟨l, -, hl⟩ | ⟨l, -, rfl⟩
  · exact hrun l hl
  · rfl

theorem execEnc3_mem {n : BitVec 2} {s t : State} (h : execEnc3 n s = .next t) : t.mem = s.mem := by
  refine onCommand_mem (fun l hl => ?_) h
  split at hl <;> cases hl
  · rfl
  · rfl

theorem execDec4_mem {f : Bool} {s t : State} (h : execDec4 f s = .next t) : t.mem = s.mem := by
  refine onCommand_mem (fun l hl => ?_) h
  split at hl <;> cases hl
  · rfl
  · rfl

theorem execDec8_mem {f : Bool} {s t : State} (h : execDec8 f s = .next t) : t.mem = s.mem := by
  refine onCommand_mem (fun l hl => ?_) h
  split at hl
  · cases hl; rfl
  · split at hl <;> cases hl
    · rfl
    · rfl

theorem exec_mem_of_not_buffer {i : Instr} {s t : State} (h : exec i s = .next t) (he : i ≠ .encode)
    (hd : i ≠ .decode) : t.mem = s.mem := by
  cases i with
  | flookup => exact onCommand_mem (fun l hl => by cases hl; rfl) h
  | rlookup => exact onCommand_mem (fun l hl => by cases hl; rfl) h
  | enc3 n => exact execEnc3_mem h
  | enc12 => exact onCommand_mem (fun l hl => by cases hl; rfl) h
  | dec4 f => exact execDec4_mem h
  | dec8 f => exact execDec8_mem h
  | aclass dir => exact onCommand_mem (fun l hl => by cases hl; rfl) h
  | encode => exact absurd rfl he
  | decode => exact absurd rfl hd

/-! ### Buffer commands -/

theorem sameOutside_of_mem_eq {s t : State} (a n : Nat) (h : t.mem = s.mem) : sameOutside a n s t :=
  fun x _ => by rw [h]

theorem execEncode_sameOutside {s t : State} {l : Latched} (hp : s.phase = .busy l) (h : execEncode s = .next t) :
    sameOutside (encodeJob l).dst (encodeJob l).outMax s t := by
  rcases execEncode_cases s l hp with ⟨c, h'⟩ | ⟨r, -, h'⟩ | h' | ⟨-, -, -, h'⟩ <;> cases h'.symm.trans h
  · exact sameOutside_of_mem_eq _ _ rfl
  · exact sameOutside_of_mem_eq _ _ rfl
  · intro x hx
    refine readByte_writeBytes_out _ _ x _ ?_
    rw [encodeText_length, readBytes_length]
    exact hx

/-- The decoded bytes, and the free values behind them, lie in the destination range (43_buffer.md R180, R182, R183). -/
theorem decodeData_sameOutside {l : Latched} (s : State) (hb : badDecodeLength l.len.toNat = false) :
    sameOutside (decodeJob l).dst (decodeJob l).outMax s (decodeData l (decodeJob l) s) := by
  rcases decodeData_cases l (decodeJob l) s with h | ⟨pos, c, -, h⟩ | ⟨bytes, pad, ht, h⟩ <;> rw [h]
  · exact sameOutside_of_mem_eq _ _ rfl
  · exact fun x hx => readByte_scramble_out _ _ x _ hx
  · obtain ⟨hlen, hpad⟩ := decodeText_accepted_size hb ht
    intro x hx
    calc readByte (scramble _ pad (spend 1 (storeBytes _ bytes s))).mem x
        = readByte (storeBytes _ bytes s).mem x := readByte_scramble_out _ _ x _ (by omega)
      _ = readByte s.mem x := readByte_writeBytes_out _ _ x _ (by omega)

theorem execDecode_sameOutside {s t : State} {l : Latched} (hp : s.phase = .busy l) (h : execDecode s = .next t) :
    sameOutside (decodeJob l).dst (decodeJob l).outMax s t := by
  rcases execDecode_cases s l hp with ⟨-, h'⟩ | ⟨c, h'⟩ | ⟨r, -, h'⟩ | ⟨hb, -, -, h'⟩ <;> cases h'.symm.trans h
  · exact sameOutside_of_mem_eq _ _ rfl
  · exact sameOutside_of_mem_eq _ _ rfl
  · exact decodeData_sameOutside s hb

/-! ### Accesses before completion (log 9) -/

theorem engineAccess_sameOutside {s : State} {l : Latched} {j : Job} (hp : s.phase = .busy l)
    (hj : jobOf l = some j) : sameOutside j.dst j.outMax s (engineAccess s) := by
  rcases engineAccess_cases s with he | ⟨l', j', hp', hj', -, hlt, he⟩ <;> rw [he]
  · exact sameOutside_of_mem_eq _ _ rfl
  · cases hp.symm.trans hp'
    cases hj.symm.trans (jobOf_of_lengthOkJob l j' hj')
    exact fun x hx => readByte_scramble_out _ _ x s (by omega)

theorem engineAccess_of_no_job {s : State} {l : Latched} (hp : s.phase = .busy l) (hj : jobOf l = none) :
    engineAccess s = s := by
  rcases engineAccess_cases s with he | ⟨l', j', hp', hj', -⟩
  · exact he
  · cases hp.symm.trans hp'
    cases hj.symm.trans (jobOf_of_lengthOkJob l j' hj')

theorem jobOf_eq_none {l : Latched} (he : decode l.cw ≠ .instr .encode) (hd : decode l.cw ≠ .instr .decode) :
    jobOf l = none := by
  rw [jobOf]
  split
  · exact absurd ‹_› he
  · exact absurd ‹_› hd
  · rfl

/-- Settles O49, for each command at completion and for the access before it. -/
theorem engineWritesOnlyTheDestination : Obligations.EngineWritesOnlyTheDestination := by
  refine ⟨fun i s t h he hd => exec_mem_of_not_buffer h he hd, fun s t l hp h => execEncode_sameOutside hp h,
    fun s t l hp h => execDecode_sameOutside hp h, fun s t l rest hp ht h => ?_⟩
  rw [step_listed ht] at h
  cases h
  refine ⟨fun hd => ?_, fun hd => ?_, fun he hd => ?_⟩
  · exact engineAccess_sameOutside (s := { s with turns := rest }) (j := encodeJob l) hp (by rw [jobOf, hd])
  · exact engineAccess_sameOutside (s := { s with turns := rest }) (j := decodeJob l) hp (by rw [jobOf, hd])
  · rw [engineAccess_of_no_job (s := { s with turns := rest }) hp (jobOf_eq_none he hd)]

/-! ### A write of another agent (R57, 70_reset_and_hazards.md R242; log 13) -/

/-- No buffer is in use where no ENCODE and no DECODE is issued. -/
theorem activeJob_eq_none {s : State} (h : ∀ l, s.phase = .busy l ∨ s.phase = .stuck l →
    decode l.cw ≠ .instr .encode ∧ decode l.cw ≠ .instr .decode) : activeJob s = none := by
  have hjob : ∀ l, s.phase = .busy l ∨ s.phase = .stuck l → jobOf l = none := fun l hl =>
    jobOf_eq_none (h l hl).1 (h l hl).2
  rw [activeJob]
  cases hp : s.phase with
  | idle => rfl
  | busy l => exact hjob l (.inl hp)
  | stuck l => exact hjob l (.inr hp)

theorem foreignWrite_of_free {s : State} {a : Word} (v : Byte) (hj : activeJob s = none)
    (ho : ordinary s.platform a.toNat = true) : foreignWrite a v s = .next (storeBytes a.toNat [v] s) := by
  rw [foreignWrite, hj, ho]
  rfl

/-- Settles O21: the byte is stored, and a store is read back at its address and nowhere else. -/
theorem foreignWritesStoreTheirByte : Obligations.ForeignWritesStoreTheirByte := by
  intro s a v rest hw hfree ho ht
  have hj : activeJob { s with turns := rest } = none := activeJob_eq_none (s := { s with turns := rest }) hfree
  refine ⟨storeBytes a.toNat [v] { s with turns := rest }, ?_, ?_, ?_, rfl⟩
  · rw [step_listed ht, takeTurn, foreignWrite_of_free v hj ho]
  · exact readByte_writeByte_self s.mem a.toNat v hw
  · exact fun x hx => readByte_writeByte_ne s.mem a.toNat x v (by omega)

end Sys2Proof.Machine
end

section
/-! ## A stuck Engine (20_memory.md R58)

Only the Engine's completion, an issue and reset change the phase or STATUS: a stuck Engine has no completion, and a CMD
write to it is refused. -/

namespace Sys2Proof.Machine

/-- The Engine's phase, STATUS and the turns to come are as they were. -/
def SameEngine (s t : State) : Prop := t.phase = s.phase ∧ t.status = s.status ∧ t.turns = s.turns

theorem SameEngine.refl (s : State) : SameEngine s s := ⟨rfl, rfl, rfl⟩

/-! ### Turns that leave the Engine alone in every phase -/

theorem busRead_sameEngine {width : Nat} {offset : BitVec 6} {k : Nat} {s t : State}
    (h : busRead width offset k s = .next t) : SameEngine s t := by
  rw [busRead] at h
  split at h <;> cases h
  next r _ =>
    obtain ⟨v, n, hshape⟩ := readReg_shape r k s
    rw [hshape]
    exact .refl s

theorem foreignWrite_sameEngine {a : Word} {v : Byte} {s t : State} (h : foreignWrite a v s = .next t) :
    SameEngine s t := by
  rw [foreignWrite] at h
  split_ifs at h
  cases h
  exact .refl s

theorem foreignRead_sameEngine {a : Word} {k : Nat} {s t : State} (h : foreignRead a k s = .next t) :
    SameEngine s t := by
  rw [foreignRead] at h
  split_ifs at h <;> cases h
  · exact .refl s
  · exact .refl s

theorem branch_sameEngine {taken : Bool} {target : Nat} {s t : State} (h : branch taken target s = .next t) :
    SameEngine s t := by
  obtain ⟨n, rfl⟩ := branch_next h
  exact .refl s

/-! ### Turns at a stuck Engine -/

section
variable {s t : State} {l : Latched} (hp : s.phase = .stuck l)
include hp

theorem writeReg_stuck {r : Reg} {v : Word} (h : writeReg r v s = .next t) : SameEngine s t := by
  cases r with
  | cmd => rw [writeReg, hp, latchOf] at h; cases h
  | _ => cases h; exact .refl s

theorem busWrite_stuck {width : Nat} {offset : BitVec 6} {v : Word} (h : busWrite width offset v s = .next t) :
    SameEngine s t := by
  rw [busWrite] at h
  split at h
  · exact writeReg_stuck hp h
  · cases h

theorem runLine_stuck {line : Line} (h : runLine line s = .next t) : SameEngine s t := by
  cases line with
  | wr r v => exact busWrite_stuck (s := nextLine s) hp h
  | rd r k => exact busRead_sameEngine (s := nextLine s) h
  | btst k i target => exact branch_sameEngine h
  | beq k v target => exact branch_sameEngine h
  | bne k v target => exact branch_sameEngine h
  | jmp target => exact branch_sameEngine (taken := true) h
  | halt => cases h; exact .refl s
  | label name => cases h; exact .refl s

theorem scriptTurn_stuck (h : scriptTurn s = .next t) : SameEngine s t := by
  rw [scriptTurn] at h
  split at h
  · exact runLine_stuck hp h
  · cases h; exact .refl s

theorem engineTurn_stuck : engineTurn s = .next s := by rw [engineTurn, hp]

theorem engineAccess_stuck : engineAccess s = s := by rw [engineAccess, hp]

theorem takeTurn_stuck {turn : Turn} (hturn : turn ≠ .reset) (h : takeTurn turn s = .next t) : SameEngine s t := by
  cases turn with
  | engine => rw [takeTurn, engineTurn_stuck hp] at h; cases h; exact .refl s
  | engineAccess => rw [takeTurn, engineAccess_stuck hp] at h; cases h; exact .refl s
  | script => exact scriptTurn_stuck hp h
  | write width offset v => exact busWrite_stuck hp h
  | read width offset k => exact busRead_sameEngine h
  | memWrite a v => exact foreignWrite_sameEngine h
  | memRead a k => exact foreignRead_sameEngine h
  | reset => exact absurd rfl hturn

/-- A step at a stuck Engine takes at most a turn from the list. -/
theorem step_stuck (hr : Turn.reset ∉ s.turns) (h : step s = .next t) :
    t.phase = .stuck l ∧ t.status = s.status ∧ Turn.reset ∉ t.turns := by
  cases hs : s.turns with
  | nil =>
    rw [step_unlisted hs, ownTurn, hp] at h
    obtain ⟨hphase, hstatus, hturns⟩ := scriptTurn_stuck hp h
    exact ⟨hphase.trans hp, hstatus, hturns ▸ hr⟩
  | cons turn rest =>
    rw [hs, List.mem_cons, not_or] at hr
    rw [step_listed hs] at h
    obtain ⟨hphase, hstatus, hturns⟩ := takeTurn_stuck (s := { s with turns := rest }) hp (Ne.symm hr.1) h
    exact ⟨hphase.trans hp, hstatus, hturns ▸ hr.2⟩

end

/-- A run of one step more is a step and a run from the state it answers. -/
theorem run_succ_next {k : Nat} {s t : State} (h : core.run (k + 1) s = .next t) :
    ∃ u, step s = .next u ∧ core.run k u = .next t := by
  simp only [Host.Core.run] at h
  split at h
  next u hu => exact ⟨u, hu, h⟩
  next => cases h
  next => cases h

/-- Settles O11, by induction on the number of steps. -/
theorem stuckEngineNeverCompletes : Obligations.StuckEngineNeverCompletes := by
  intro k
  induction k with
  | zero => intro s t l hp _ h; cases h; exact ⟨hp, rfl⟩
  | succ k ih =>
    intro s t l hp hr h
    obtain ⟨u, hu, hrun⟩ := run_succ_next h
    obtain ⟨hpu, hsu, hru⟩ := step_stuck hp hr hu
    obtain ⟨hpt, hst⟩ := ih u t l hpu hru hrun
    exact ⟨hpt, hst.trans hsu⟩

end Sys2Proof.Machine
end

section
/-! ## The command word (30_encoding.md R70 to R76)

A word is put together from its four fields, so the decoder and the encoder are compared field by field; which words are
legal, and what the assembler does, follows from that comparison. -/

namespace Sys2Proof

/-! ### The fields of a word (R70) -/

theorem opField_toNat (w : Word) : (opField w).toNat = w.toNat % 16 := by
  rw [opField, BitVec.extractLsb'_toNat, Nat.shiftRight_zero]

theorem countField_toNat (w : Word) : (countField w).toNat = w.toNat / 16 % 4 := by
  rw [countField, BitVec.extractLsb'_toNat, Nat.shiftRight_eq_div_pow]

theorem flagField_toNat (w : Word) : (flagField w).toNat = w.toNat / 64 % 2 := by
  rw [flagField, BitVec.getLsbD, Nat.testBit_eq_decide_div_mod_eq]
  rcases Nat.mod_two_eq_zero_or_one (w.toNat / 64) with h | h <;> simp [h]

theorem rsvField_toNat (w : Word) : (rsvField w).toNat = w.toNat / 128 := by
  have := w.isLt
  rw [rsvField, BitVec.extractLsb'_toNat, Nat.shiftRight_eq_div_pow]
  omega

theorem commandWord_toNat (op : BitVec 4) (n : BitVec 2) (f : Bool) :
    (commandWord op n f).toNat = 64 * f.toNat + 16 * n.toNat + op.toNat := by
  rw [commandWord, BitVec.toNat_append, ← Nat.shiftLeft_add_eq_or_of_lt (BitVec.isLt _), BitVec.toNat_append,
    ← Nat.shiftLeft_add_eq_or_of_lt (BitVec.isLt _), BitVec.toNat_append,
    ← Nat.shiftLeft_add_eq_or_of_lt (BitVec.isLt _)]
  simp only [BitVec.toNat_ofBool, Nat.shiftLeft_eq, BitVec.toNat_ofNat]
  omega

/-- A word is put together from its fields if RSV is 0. -/
theorem commandWord_eq_iff {w : Word} {op : BitVec 4} {n : BitVec 2} {f : Bool} :
    commandWord op n f = w ↔ rsvField w = 0 ∧ opField w = op ∧ countField w = n ∧ flagField w = f := by
  have hop := op.isLt
  have hn := n.isLt
  have hf := f.toNat_lt
  have hflag : flagField w = f ↔ (flagField w).toNat = f.toNat := by cases flagField w <;> cases f <;> decide
  simp only [hflag, ← BitVec.toNat_inj, commandWord_toNat, opField_toNat, countField_toNat, flagField_toNat,
    rsvField_toNat, BitVec.ofNat_eq_ofNat, BitVec.toNat_zero]
  omega

/-! ### Decoding a word put together from fields (R75) -/

theorem plainOp_eq_instr_iff {n : BitVec 2} {f : Bool} {i j : Instr} :
    plainOp n f i = .instr j ↔ n = 0 ∧ f = false ∧ i = j := by
  rw [plainOp]; split_ifs <;> simp_all

theorem flaggedOp_eq_instr_iff {n : BitVec 2} {i j : Instr} : flaggedOp n i = .instr j ↔ n = 0 ∧ i = j := by
  rw [flaggedOp]; split_ifs <;> simp_all

theorem countedOp_eq_instr_iff {n : BitVec 2} {f : Bool} {j : Instr} :
    countedOp n f = .instr j ↔ n ≠ 0 ∧ f = false ∧ .enc3 n = j := by
  rw [countedOp]; split_ifs <;> simp_all

@[simp] theorem sideFlag_sideOf (f : Bool) : sideFlag (sideOf f) = f := by cases f <;> rfl

section
variable {w : Word} {op : BitVec 4} {i j : Instr}

theorem plainOp_word (h : plainOp (countField w) (flagField w) i = .instr j) (hi : wellFormed i = true)
    (hw : encode i = commandWord op 0 false) (hr : rsvField w = 0) (hop : (opField w).toNat = op.toNat) :
    wellFormed j = true ∧ encode j = w := by
  obtain ⟨hn, hf, rfl⟩ := plainOp_eq_instr_iff.1 h
  exact ⟨hi, hw.trans (commandWord_eq_iff.2 ⟨hr, BitVec.eq_of_toNat_eq hop, hn, hf⟩)⟩

theorem flaggedOp_word (h : flaggedOp (countField w) i = .instr j) (hi : wellFormed i = true)
    (hw : encode i = commandWord op 0 (flagField w)) (hr : rsvField w = 0) (hop : (opField w).toNat = op.toNat) :
    wellFormed j = true ∧ encode j = w := by
  obtain ⟨hn, rfl⟩ := flaggedOp_eq_instr_iff.1 h
  exact ⟨hi, hw.trans (commandWord_eq_iff.2 ⟨hr, BitVec.eq_of_toNat_eq hop, hn, rfl⟩)⟩

theorem countedOp_word (h : countedOp (countField w) (flagField w) = .instr j) (hr : rsvField w = 0)
    (hop : (opField w).toNat = 3) : wellFormed j = true ∧ encode j = w := by
  obtain ⟨hn, hf, rfl⟩ := countedOp_eq_instr_iff.1 h
  exact ⟨bne_iff_ne.2 hn, commandWord_eq_iff.2 ⟨hr, BitVec.eq_of_toNat_eq hop, rfl, hf⟩⟩

end

/-- The command the decoder reads is the one whose word has these fields. -/
theorem encode_of_decode {w : Word} {i : Instr} (h : decode w = .instr i) : wellFormed i = true ∧ encode i = w := by
  rw [decode] at h
  split at h
  case isTrue => cases h
  case isFalse hr =>
    have hr : rsvField w = 0 := not_not.1 hr
    split at h
    next hop => exact plainOp_word h rfl rfl hr hop
    next hop => exact plainOp_word h rfl rfl hr hop
    next hop => exact countedOp_word h hr hop
    next hop => exact plainOp_word h rfl rfl hr hop
    next hop => exact flaggedOp_word h rfl rfl hr hop
    next hop => exact flaggedOp_word h rfl rfl hr hop
    next hop => exact flaggedOp_word (op := 7) h rfl (by rw [encode, sideFlag_sideOf]) hr hop
    next hop => exact plainOp_word h rfl rfl hr hop
    next hop => exact plainOp_word h rfl rfl hr hop
    next => cases h

/-- The decoder reads a legal command from its word. -/
theorem decode_encode {i : Instr} (h : wellFormed i = true) : decode (encode i) = .instr i := by
  cases i with
  | enc3 n => revert n; decide
  | dec4 f => cases f <;> rfl
  | dec8 f => cases f <;> rfl
  | aclass d => cases d <;> rfl
  | _ => rfl

/-- The decoder and the encoder agree in both directions. -/
theorem decode_eq_instr_iff {w : Word} {i : Instr} : decode w = .instr i ↔ wellFormed i = true ∧ encode i = w := by
  refine ⟨encode_of_decode, ?_⟩
  rintro ⟨hi, rfl⟩
  exact decode_encode hi

/-- Settles O2, by cases on the command: the flags and counts it may carry are few. -/
theorem decodeOfEncodeGivesTheCommandBack : Obligations.DecodeOfEncodeGivesTheCommandBack := fun _ => decode_encode

/-- Settles O3: the fields that make the decoder read a command are those the encoder writes for it. -/
theorem decodedWordIsTheEncodingOfItsCommand : Obligations.DecodedWordIsTheEncodingOfItsCommand :=
  fun _ _ => encode_of_decode

/-! ### The fourteen legal words (R72) -/

/-- R72's list holds every legal command. -/
theorem mem_legalCommands_iff {i : Instr} : i ∈ legalCommands ↔ wellFormed i = true := by
  cases i with
  | enc3 n => revert n; decide
  | dec4 f => cases f <;> decide
  | dec8 f => cases f <;> decide
  | aclass d => cases d <;> decide
  | _ => decide

/-- The legal words with their commands are the legal commands with their words. -/
theorem decode_eq_instr_iff_mem {w : Word} {i : Instr} :
    decode w = .instr i ↔ (w, i) ∈ legalCommands.map fun j => (encode j, j) := by
  simp only [decode_eq_instr_iff, List.mem_map, mem_legalCommands_iff, Prod.mk.injEq]
  constructor
  · rintro ⟨hi, hw⟩
    exact ⟨i, hi, hw, rfl⟩
  · rintro ⟨j, hj, hw, rfl⟩
    exact ⟨hj, hw⟩

/-- Settles O4: the list is that of the legal commands, each with its word. -/
theorem legalWordsAreExactlyTheOpcodeMap : Obligations.LegalWordsAreExactlyTheOpcodeMap :=
  fun _ _ => decode_eq_instr_iff_mem

/-- Settles O1, by evaluation: the words are fixed. -/
theorem fourteenWordsDecodeToTheirCommands : Obligations.FourteenWordsDecodeToTheirCommands := by
  unfold Obligations.FourteenWordsDecodeToTheirCommands
  decide

/-! ### The illegal words (R74) -/

theorem legalWords_eq : legalWords = legalCommands.map encode := by decide

/-- A word is illegal exactly if it is not on R72's list. -/
theorem exists_illegal_iff_not_mem {w : Word} : (∃ why, decode w = .illegal why) ↔ w ∉ legalWords := by
  have hlegal : w ∈ legalWords ↔ ∃ i, decode w = .instr i := by
    simp only [legalWords_eq, List.mem_map, mem_legalCommands_iff, decode_eq_instr_iff]
  rw [hlegal]
  cases decode w with
  | instr i => simp
  | illegal why => simp

/-- R74's conditions, on the word as a number, are those of the list. -/
theorem not_mem_legalWords_iff {w : Word} : w ∉ legalWords ↔
    (w.toNat % 16 = 0 ∨ 10 ≤ w.toNat % 16 ∨ w.toNat / 128 ≠ 0 ∨
      (w.toNat / 16 % 4 ≠ 0 ∧ w.toNat % 16 ≠ 3) ∨ (w.toNat / 16 % 4 = 0 ∧ w.toNat % 16 = 3) ∨
      (w.toNat / 64 % 2 ≠ 0 ∧ w.toNat % 16 ≠ 5 ∧ w.toNat % 16 ≠ 6 ∧ w.toNat % 16 ≠ 7)) := by
  simp only [legalWords, List.mem_cons, List.not_mem_nil, or_false, ← BitVec.toNat_inj, BitVec.ofNat_eq_ofNat,
    BitVec.toNat_ofNat, Nat.reducePow, Nat.reduceMod]
  omega

/-! ### The assembler (R76) -/

/-- A text stands for the command it belongs to, in a list of commands with different texts. -/
theorem commandOfText_assemblyText {is : List Instr} (h : (is.map assemblyText).Nodup) {i : Instr} (hi : i ∈ is) :
    commandOfText (assemblyText i) is = some i := by
  induction is with
  | nil => cases hi
  | cons j rest ih =>
    rw [List.map_cons, List.nodup_cons] at h
    rw [commandOfText]
    rcases List.mem_cons.1 hi with rfl | hi
    · exact if_pos rfl
    · have hne : assemblyText j ≠ assemblyText i := fun e => h.1 (e ▸ List.mem_map_of_mem hi)
      rw [if_neg hne, ih h.2 hi]

theorem assemble_assemblyText {i : Instr} (h : wellFormed i = true) :
    assemble (assemblyText i) = some (encode i) := by
  rw [assemble, commandOfText_assemblyText (by decide) (mem_legalCommands_iff.2 h), Option.map_some]

/-- Settles O6: every legal command has a text of its own. -/
theorem assemblerTextGivesTheCommandWord : Obligations.AssemblerTextGivesTheCommandWord := by
  refine ⟨by decide, fun _ => assemble_assemblyText, fun w i h => ?_, fun w why h => ?_, by decide, by decide⟩
  · rw [disassemble, h]
  · rw [disassemble, h]

end Sys2Proof
end

section
/-! ## The completion of an illegal word (30_encoding.md R74) -/

namespace Sys2Proof.Machine

theorem engineTurn_of_illegal {s : State} {l : Latched} {why : Illegal} (hp : s.phase = .busy l)
    (hd : decode l.cw = .illegal why) : engineTurn s = .next (completePerr .illegalCommand s) := by
  rw [engineTurn, hp]
  simp only [hd]

/-- Settles O5: an illegal word is issued as O8 says of every word. -/
theorem illegalWordsCompleteAsIllegalCommand : Obligations.IllegalWordsCompleteAsIllegalCommand := by
  refine ⟨fun w => exists_illegal_iff_not_mem.trans not_mem_legalWords_iff, fun s w why rest hp _ ht => ?_,
    fun s l why rest hp hd ht => ?_⟩
  · exact cmdWriteIssuesAndLatches s w rest hp ht
  · rw [step_listed ht, takeTurn, engineTurn_of_illegal (s := { s with turns := rest }) hp hd]
    rfl

end Sys2Proof.Machine
end

section
/-! ## Host scripts (30_encoding.md R77, R78)

Where a label stands, what a branch line does, and one round of `poll`. -/

namespace Sys2Proof.Machine

/-! ### Labels and branches -/

/-- A label stands on the first line that carries it (log 12). -/
theorem labelLine_of_first {x n : Nat} {ls : List Line} (h : ls[n]? = some (.label x))
    (hfirst : ∀ m, m < n → ls[m]? ≠ some (.label x)) : labelLine x ls 0 = some n := by
  obtain ⟨hn, hx⟩ := List.getElem?_eq_some_iff.1 h
  have hbefore : Line.label x ∉ ls.take n := by
    rw [List.mem_take_iff_getElem]
    rintro ⟨m, hm, hmx⟩
    exact hfirst m (by omega) (List.getElem?_eq_some_iff.2 ⟨by omega, hmx⟩)
  have := labelLine_append x (ls.take n) (ls.drop (n + 1)) 0 hbefore
  rwa [← hx, List.getElem_cons_drop, List.take_append_drop, Nat.zero_add, List.length_take_of_le hn.le] at this

theorem jumpTo_of_labelLine {x n : Nat} {s : State} (h : labelLine x s.host.script 0 = some n) :
    jumpTo x s = .next (atLine n s) := by rw [jumpTo, h]

theorem jumpTo_undefined {x : Nat} {s : State} (h : Line.label x ∉ s.host.script) :
    jumpTo x s = .refused .undefinedLabel := by rw [jumpTo, labelLine_eq_none x _ 0 h]

theorem branch_taken (x : Nat) (s : State) : branch true x s = jumpTo x s := rfl

theorem branch_not_taken (x : Nat) (s : State) : branch false x s = .next (nextLine s) := rfl

/-- Settles O54: each of the lines is a branch, a label one that is never taken. -/
theorem branchLinesOnlyMoveTheScript : Obligations.BranchLinesOnlyMoveTheScript := by
  intro s x n tmp i v taken line hline
  have hbranch : runLine line s = branch taken x s := by
    rcases hline with ⟨rfl, rfl⟩ | ⟨rfl, rfl⟩ | ⟨rfl, rfl⟩ | ⟨rfl, rfl⟩ | ⟨rfl, rfl⟩ <;> rfl
  rw [hbranch]
  refine ⟨fun h => ?_, fun htaken hx => ?_, rfl⟩
  · cases taken with
    | true =>
      obtain ⟨hx, hfirst⟩ := h rfl
      exact jumpTo_of_labelLine (labelLine_of_first hx hfirst)
    | false => rfl
  · rw [htaken, branch_taken, jumpTo_undefined hx]

/-! ### The turns of a script -/

theorem step_script {s : State} {line : Line} {rest : List Turn} (ht : s.turns = .script :: rest)
    (hl : s.host.script[s.host.line]? = some line) : step s = runLine line { s with turns := rest } := by
  rw [step_listed ht, takeTurn, scriptTurn, hl]

theorem runLine_rd (r : Reg) (t : Nat) (s : State) : runLine (.rd r t) s = .next (readReg r t (nextLine s)) := by
  rw [runLine, busRead, regAt_regOffset]

theorem run_succ_of_step {k : Nat} {s u : State} (h : step s = .next u) : core.run (k + 1) s = core.run k u := by
  have h : core.step s = .next u := h
  simp only [Host.Core.run, h]

/-- The state after one round of `poll` whose label stands on line `n`: STATUS in the temporary, and the script at the
label while BUSY = 1, behind the poll otherwise. -/
def afterPoll (n tmp : Nat) (s : State) : State :=
  atLine (if busyFlag s.status = true then n else n + 3) (setTemp tmp s.status { s with turns := [] })

/-- The branch of a poll, on the STATUS just read. -/
theorem poll_branch {n tmp fresh : Nat} {s : State} (hl : labelLine fresh s.host.script 0 = some n)
    (hw : sparseWf unwrittenTemp s.host.temps = true) :
    runLine (.btst tmp 0 fresh) (atLine (n + 2) (setTemp tmp s.status s)) =
      .next (atLine (if busyFlag s.status = true then n else n + 3) (setTemp tmp s.status s)) := by
  have htemp : tempValue (atLine (n + 2) (setTemp tmp s.status s)) tmp = s.status := tempValue_setTemp_self _ _ _ hw
  rw [runLine, htemp, ← busyFlag]
  cases busyFlag s.status with
  | true => exact jumpTo_of_labelLine hl
  | false => rfl

theorem run_poll {s : State} {before after : List Line} {fresh tmp : Nat}
    (hs : s.host.script = before ++ poll fresh tmp ++ after) (hfresh : Line.label fresh ∉ before)
    (hl : s.host.line = before.length) (hw : sparseWf unwrittenTemp s.host.temps = true)
    (ht : s.turns = [.script, .script, .script]) : core.run 3 s = .next (afterPoll before.length tmp s) := by
  have hlabel : labelLine fresh s.host.script 0 = some before.length := by
    rw [hs, List.append_assoc, poll, List.cons_append, labelLine_append _ _ _ _ hfresh, Nat.zero_add]
  have hline (k) (hk : k < 3) : s.host.script[before.length + k]? = (poll fresh tmp)[k]? := by
    rw [hs, List.append_assoc, List.getElem?_append_right (Nat.le_add_right _ _), Nat.add_sub_cancel_left,
      List.getElem?_append_left (by simpa [poll] using hk)]
  have step1 : step s = .next (atLine (before.length + 1) { s with turns := [.script, .script] }) := by
    rw [step_script ht (by rw [hl]; exact hline 0 (by decide)), runLine, nextLine]
    simp only [hl]
  have step2 : step (atLine (before.length + 1) { s with turns := [.script, .script] }) =
      .next (atLine (before.length + 2) (setTemp tmp s.status { s with turns := [.script] })) := by
    rw [step_script rfl (hline 1 (by decide)), runLine_rd]
    rfl
  have step3 : step (atLine (before.length + 2) (setTemp tmp s.status { s with turns := [.script] })) =
      .next (afterPoll before.length tmp s) := by
    rw [step_script rfl (hline 2 (by decide))]
    exact poll_branch (s := { s with turns := [] }) hlabel hw
  rw [run_succ_of_step step1, run_succ_of_step step2, run_succ_of_step step3]
  rfl

/-- Settles O55: the round ends in `afterPoll`. -/
theorem pollLoopsWhileBusy : Obligations.PollLoopsWhileBusy := by
  intro s before after fresh tmp hs hfresh hl hw ht
  refine ⟨afterPoll before.length tmp s, run_poll hs hfresh hl hw ht, ?_, fun j hj => ?_, rfl⟩
  · exact tempValue_setTemp_self _ _ _ hw
  · exact tempValue_setTemp_ne _ _ _ _ hj

end Sys2Proof.Machine
end

section
/-! ## The tables and the lookup commands (40_lookup.md R100 to R106)

Bit 7 of REV tells the characters of FWD from the other bytes; FLOOKUP and RLOOKUP answer the entries as words. -/

namespace Sys2Proof.Machine

/-! ### The table laws (R102) -/

/-- The alphabet is what FWD holds. -/
theorem valid_iff_exists_fwd {b : Byte} : valid b = true ↔ ∃ i : Sextet, fwd i = b := by
  constructor
  · intro h
    obtain ⟨i, hi⟩ := Option.isSome_iff_exists.1 h
    exact ⟨i, fwd_of_revIndex hi⟩
  · rintro ⟨i, rfl⟩
    exact valid_fwd i

theorem rev_bit7_eq_false_iff (p : Platform) {b : Byte} :
    (rev p b).getLsbD 7 = false ↔ ∃ i : Sextet, fwd i = b := by
  rw [← valid_iff_exists_fwd, valid_eq_rev_bit7 p, Bool.not_eq_true']

theorem fwd_injective : Function.Injective fwd := by
  intro i j h
  apply Option.some.inj
  rw [← revIndex_fwd i, h, revIndex_fwd j]

theorem count_valid : ((List.range 256).filter fun n => valid (BitVec.ofNat 8 n)).length = 64 := by
  simp only [valid_eq_isAlphabet, BitVec.toNat_ofNat]
  decide

/-- A 6-bit value in a byte leaves bits 7:6 at 00. -/
theorem extractLsb'_setWidth_sextet (i : Sextet) : (i.setWidth 8).extractLsb' 6 2 = 0 := by
  apply BitVec.eq_of_toNat_eq
  have := i.isLt
  simp only [BitVec.extractLsb'_toNat, BitVec.toNat_setWidth, Nat.shiftRight_eq_div_pow, BitVec.ofNat_eq_ofNat,
    BitVec.toNat_ofNat]
  omega

/-- Settles O22: a byte with bit 7 of its REV entry 0 is a character of FWD, any other reads as the sentinel. -/
theorem tableLaws : Obligations.TableLaws := by
  refine fun p => ⟨rev_fwd p, ?_, fun b hb => ?_, fun b hb => ?_, fun i j => @fwd_injective i j⟩
  · simp only [← valid_eq_rev_bit7]
    exact count_valid
  · obtain ⟨i, rfl⟩ := (rev_bit7_eq_false_iff p).1 hb
    exact ⟨by rw [rev_fwd, extractLsb'_setWidth_sextet], by rw [rev_fwd_sextet]⟩
  · refine rev_of_not_fwd p fun i hi => ?_
    rw [(rev_bit7_eq_false_iff p).2 ⟨i, hi⟩] at hb
    cases hb

/-! ### The entries of REV as numbers (R101) -/

/-- The byte with the code of character `v` reads as `v`. -/
theorem rev_toNat_of_char (p : Platform) {b : Byte} {v : Nat} (hv : v < 64) (h : alphabetChar v = b.toNat) :
    (rev p b).toNat = v := by
  have hb : fwd (BitVec.ofNat 6 v) = b := by
    apply BitVec.eq_of_toNat_eq
    rw [fwd_toNat, BitVec.toNat_ofNat, Nat.mod_eq_of_lt hv, h]
  rw [← hb, rev_fwd, BitVec.toNat_setWidth, BitVec.toNat_ofNat]
  omega

theorem revSentinel_toNat (p : Platform) : (revSentinel p).toNat = 128 + p.sentinelLow.toNat :=
  toNat_append_arith 1#1 p.sentinelLow

/-- A byte with the code of no character reads as the sentinel. -/
theorem rev_toNat_of_no_char (p : Platform) {b : Byte} (h : ∀ v, v < 64 → alphabetChar v ≠ b.toNat) :
    (rev p b).toNat = 128 + p.sentinelLow.toNat := by
  rw [rev_of_not_fwd p, revSentinel_toNat]
  rintro i rfl
  exact h i.toNat i.isLt (fwd_toNat i).symm

/-! ### The lookup commands (R105, R106) -/

section
variable {s : State} {l : Latched}

theorem exec_flookup (hp : s.phase = .busy l) : exec .flookup s =
    .next (completeOk 1 (setDout 0 (BitVec.ofNat 32 (alphabetChar (l.din[0].toNat % 64))) s)) := by
  have hindex : (l.din[0].extractLsb' 0 6).toNat = l.din[0].toNat % 64 := BitVec.extractLsb'_toNat ..
  rw [exec, execFlookup, onCommand_busy hp, ← BitVec.ofNat_toNat, fwd_toNat, hindex]

theorem exec_rlookup (hp : s.phase = .busy l) : exec .rlookup s =
    .next (completeOk 1 (setDout 0 (BitVec.ofNat 32 (rev s.platform (l.din[0].extractLsb' 0 8)).toNat) s)) := by
  rw [exec, execRlookup, onCommand_busy hp, BitVec.ofNat_toNat]

end

/-- Settles O25: the entry of FWD is the character. -/
theorem flookupResult : Obligations.FlookupResult := ⟨by decide, fun _ _ hp => exec_flookup hp⟩

/-- Settles O26: the entry of REV is the value of the character, or the sentinel. -/
theorem rlookupResult : Obligations.RlookupResult := by
  refine ⟨by decide, fun s l hp => ?_⟩
  have hbyte : (l.din[0].extractLsb' 0 8).toNat = l.din[0].toNat % 256 := BitVec.extractLsb'_toNat ..
  rw [← hbyte, exec_rlookup hp]
  refine ⟨fun v hv hchar => ?_, fun hnone => ?_⟩
  · rw [rev_toNat_of_char s.platform hv hchar]
    rfl
  · rw [rev_toNat_of_no_char s.platform hnone]
    rfl

end Sys2Proof.Machine
end

section
/-! ## The encode group commands (41_encode.md R120 to R126)

ENC3 and ENC12 answer the text words of their groups; a group of the model is a group of bytes of DIN. -/

namespace Sys2Proof.Machine

/-! ### The groups as bytes of DIN (R120, R125) -/

theorem groupByte_toNat (din : Vector Word 3) (k : Fin 12) :
    (groupByte din k).toNat = byteOf (din[k.val / 4]).toNat (k.val % 4) := lane_toNat ..

theorem blockWord_eq_groupWord (din : Vector Word 3) (g : Fin 4) : blockWord din g = groupWord 3
    (groupByte din ⟨3 * g.val, by omega⟩).toNat (groupByte din ⟨3 * g.val + 1, by omega⟩).toNat
    (groupByte din ⟨3 * g.val + 2, by omega⟩).toNat :=
  wordOfQuad_encGroup 3 _ (by omega)

/-- The text word of ENC3 on a word, by arithmetic on its bytes. -/
theorem wordOfQuad_countedGroup (w : Word) {n : Nat} (hn : n = 1 ∨ n = 2 ∨ n = 3) :
    wordOfQuad (encGroup n (countedGroup n w)) = groupWord n (byteOf w.toNat 0)
      (if 1 < n then byteOf w.toNat 1 else 0) (if 2 < n then byteOf w.toNat 2 else 0) := by
  have hpos : 0 < n := by omega
  rw [wordOfQuad_encGroup n _ hn, countedGroup, if_pos hpos]
  simp only [apply_ite BitVec.toNat, lane_toNat, BitVec.ofNat_eq_ofNat, BitVec.toNat_zero]

/-- A word that holds the three bytes of a group of the block in lanes 0 to 2 gives ENC3 3 that group (R126). -/
theorem countedGroup_eq_blockGroup {w : Word} {din : Vector Word 3} {g : Fin 4}
    (h : ∀ k : Fin 3, lane w k.val = groupByte din ⟨3 * g.val + k.val, by omega⟩) :
    countedGroup 3 w = blockGroup din g :=
  congr (congrArg₂ Triple.mk (h 0) (h 1)) (h 2)

/-! ### The encode group commands -/

section
variable {s : State} {l : Latched}

theorem exec_enc3 {n : BitVec 2} (hp : s.phase = .busy l) (hn : n ≠ 0) : exec (.enc3 n) s =
    .next (completeOk 4 (setDout 0 (wordOfQuad (encGroup n.toNat (countedGroup n.toNat l.din[0]))) s)) := by
  rw [exec, execEnc3, onCommand_busy hp, if_neg hn]

theorem exec_enc12 (hp : s.phase = .busy l) : exec .enc12 s = .next (completeOk 16
    { s with dout := #v[blockWord l.din 0, blockWord l.din 1, blockWord l.din 2, blockWord l.din 3] }) := by
  rw [exec, execEnc12, onCommand_busy hp]

theorem dout_of_exec_enc3 {n : BitVec 2} {t : State} (hp : s.phase = .busy l) (hn : n ≠ 0)
    (h : exec (.enc3 n) s = .next t) :
    t.dout[0] = wordOfQuad (encGroup n.toNat (countedGroup n.toNat l.din[0])) := by
  rw [exec_enc3 hp hn] at h
  cases h
  exact Vector.getElem_set_self ..

theorem dout_of_exec_enc12 {t : State} (hp : s.phase = .busy l) (h : exec .enc12 s = .next t) (g : Fin 4) :
    t.dout[g] = blockWord l.din g := by
  rw [exec_enc12 hp] at h
  cases h
  match g with
  | 0 | 1 | 2 | 3 => rfl

end

/-- Settles O27: the counted group's text word is that of the bytes ENC3 counts. -/
theorem enc3Result : Obligations.Enc3Result := by
  refine ⟨by decide, by decide, by decide, fun s l n hp hn => ?_⟩
  have hcount : n.toNat = 1 ∨ n.toNat = 2 ∨ n.toNat = 3 := by
    have hne : n.toNat ≠ 0 := fun h => hn (BitVec.eq_of_toNat_eq h)
    omega
  rw [exec_enc3 hp hn, wordOfQuad_countedGroup l.din[0] hcount]
  rfl

/-- Settles O28: bytes 3g to 3g + 2 of the block are the lanes that group g straddles. -/
theorem enc12Result : Obligations.Enc12Result := by
  refine ⟨by decide, fun s l hp => ?_⟩
  rw [exec_enc12 hp]
  simp only [blockWord_eq_groupWord, groupByte_toNat]
  rfl

/-- Settles O29: both commands encode the same group of three bytes. -/
theorem enc12IsLanewiseEnc3 : Obligations.Enc12IsLanewiseEnc3 := by
  intro s s' t t' l l' g hp hp' hlanes ht ht'
  calc t.dout[g] = wordOfQuad (encGroup 3 (blockGroup l.din g)) := dout_of_exec_enc12 hp ht g
    _ = wordOfQuad (encGroup 3 (countedGroup 3 l'.din[0])) := by rw [countedGroup_eq_blockGroup hlanes]
    _ = t'.dout[0] := (dout_of_exec_enc3 hp' (by decide) ht').symm

end Sys2Proof.Machine
end

section
/-! ## The decode group commands (42_decode.md R140 to R152)

Legal and illegal groups in a data register by the codes of its characters; DEC4 and DEC8 answer by the group check. -/

namespace Sys2Proof.Machine

/-! ### The combined validity test (R141) -/

theorem getLsbD_foldl_or (bs : List Byte) (acc : Byte) (k : Nat) :
    (bs.foldl (fun x y => x ||| y) acc).getLsbD k = (acc.getLsbD k || bs.any (·.getLsbD k)) := by
  induction bs generalizing acc with
  | nil => simp
  | cons b bs ih => rw [List.foldl_cons, ih, BitVec.getLsbD_or, List.any_cons, Bool.or_assoc]

theorem and_0x80_ne_zero_iff : ∀ b : Byte, b &&& 0x80 ≠ 0 ↔ b.getLsbD 7 = true := by decide

theorem rev_bit7_eq_true_iff (p : Platform) (b : Byte) :
    (rev p b).getLsbD 7 = true ↔ isAlphabet b.toNat = false := by
  rw [← valid_eq_isAlphabet, valid_eq_rev_bit7 p, Bool.not_eq_false']

/-- Settles O23: bit 7 of an OR is the OR of the bits 7. -/
theorem combinedOrTestFindsAnyInvalidCharacter : Obligations.CombinedOrTestFindsAnyInvalidCharacter := by
  intro p cs
  have hzero : (0 : Byte).getLsbD 7 = false := rfl
  rw [and_0x80_ne_zero_iff, getLsbD_foldl_or, hzero, Bool.false_or, List.any_map, List.any_eq_true]
  simp only [Function.comp_apply, rev_bit7_eq_true_iff]

/-! ### The shapes of legal groups (R140, R142) -/

theorem illegalAt_nonfinal (q : Quad) (i : Fin 4) : illegalAt q false i = !valid (charAt q i) := by
  simp [illegalAt, padAllowed]

/-- Positions 0 and 1 hold no `=`, position 2 only before a `=`, position 3 may hold one. -/
theorem no_illegalAt_final_iff (q : Quad) : (∀ i, illegalAt q true i = false) ↔
    valid q.c0 = true ∧ valid q.c1 = true ∧ (valid q.c2 = true ∨ q.c2 = padChar ∧ q.c3 = padChar) ∧
      (valid q.c3 = true ∨ q.c3 = padChar) := by
  rw [forall_position]
  simp [illegalAt, padAllowed, charAt, ← Bool.not_eq_true, or_iff_not_imp_left]

theorem padCount_final (q : Quad) :
    padCount q true = if q.c3 = padChar then (if q.c2 = padChar then 2 else 1) else 0 := by
  simp [padCount]

theorem ne_padChar_of_valid {b : Byte} (h : valid b = true) : b ≠ padChar := by
  rintro rfl
  rw [valid_padChar] at h
  cases h

theorem legal4_nonfinal_iff (q : Quad) (pad : Nat) : legal4 q false = .legal pad ↔
    valid q.c0 = true ∧ valid q.c1 = true ∧ valid q.c2 = true ∧ valid q.c3 = true ∧ pad = 0 := by
  rw [legal4_legal_iff, forall_position]
  simp only [illegalAt_nonfinal, Bool.not_eq_false', charAt, and_assoc]
  rfl

theorem legal4_final_iff (q : Quad) (pad : Nat) : legal4 q true = .legal pad ↔
    valid q.c0 = true ∧ valid q.c1 = true ∧ ((valid q.c2 = true ∧ valid q.c3 = true ∧ pad = 0) ∨
      (valid q.c2 = true ∧ q.c3 = padChar ∧ pad = 1) ∨ (q.c2 = padChar ∧ q.c3 = padChar ∧ pad = 2)) := by
  rw [legal4_legal_iff, no_illegalAt_final_iff, padCount_final]
  constructor
  · rintro ⟨⟨h0, h1, h2, h3 | h3⟩, rfl⟩
    · have hne := ne_padChar_of_valid h3
      exact ⟨h0, h1, .inl ⟨h2.resolve_right fun h => hne h.2, h3, if_neg hne⟩⟩
    · rw [if_pos h3]
      rcases h2 with h2 | ⟨h2, -⟩
      · exact ⟨h0, h1, .inr (.inl ⟨h2, h3, if_neg (ne_padChar_of_valid h2)⟩)⟩
      · exact ⟨h0, h1, .inr (.inr ⟨h2, h3, if_pos h2⟩)⟩
  · rintro ⟨h0, h1, ⟨h2, h3, rfl⟩ | ⟨h2, h3, rfl⟩ | ⟨h2, h3, rfl⟩⟩
    · exact ⟨⟨h0, h1, .inl h2, .inl h3⟩, (if_neg (ne_padChar_of_valid h3)).symm⟩
    · exact ⟨⟨h0, h1, .inl h2, .inr h3⟩, by rw [if_pos h3, if_neg (ne_padChar_of_valid h2)]⟩
    · exact ⟨⟨h0, h1, .inr ⟨h2, h3⟩, .inr h3⟩, by rw [if_pos h3, if_pos h2]⟩

/-- Settles O24: the characters of the alphabet are the valid ones. -/
theorem legalGroupsHaveTheThreeShapes : Obligations.LegalGroupsHaveTheThreeShapes := by
  intro q pad
  simp only [← valid_eq_isAlphabet]
  exact ⟨legal4_nonfinal_iff q pad, legal4_final_iff q pad⟩

/-! ### The group in a data register, by character codes (R143, R146) -/

/-- The codes of the four characters in a word. -/
def wordChars (w : Word) (i : Fin 4) : Nat := byteOf w.toNat i.val

/-- Byte `j` of the decoded group of four character codes. -/
def decodedByte (c : Fin 4 → Nat) (j : Nat) : Nat :=
  groupOut (charValue (c 0)) (charValue (c 1)) (charValue (c 2)) (charValue (c 3)) j

/-- The padding count of a legal group of four character codes. -/
def charsPad (c : Fin 4 → Nat) (final : Bool) : Nat :=
  if final = true ∧ c 3 = 0x3D then (if c 2 = 0x3D then 2 else 1) else 0

theorem charsPad_nonfinal (c : Fin 4 → Nat) : charsPad c false = 0 := by simp [charsPad]

theorem illegalAt_quadOfWord (w : Word) (final : Bool) (i : Fin 4) :
    illegalAt (quadOfWord w) final i = badPosition (wordChars w) final i := by
  simp only [illegalAt_eq, charAt_quadOfWord]
  rfl

theorem padCount_quadOfWord (w : Word) (final : Bool) :
    padCount (quadOfWord w) final = charsPad (wordChars w) final := by
  simp only [padCount, beq_padChar, Bool.and_eq_true, decide_eq_true_eq]
  have h2 := charAt_quadOfWord w 2
  have h3 := charAt_quadOfWord w 3
  simp only [charAt] at h2 h3
  rw [h2, h3]
  rfl

theorem legal4_quadOfWord_legal {w : Word} {final : Bool} (h : ∀ i, badPosition (wordChars w) final i = false) :
    legal4 (quadOfWord w) final = .legal (charsPad (wordChars w) final) := by
  rw [legal4_legal_iff]
  simp only [illegalAt_quadOfWord]
  exact ⟨h, (padCount_quadOfWord w final).symm⟩

theorem legal4_quadOfWord_illegal {w : Word} {final : Bool} {i : Fin 4}
    (hi : badPosition (wordChars w) final i = true)
    (hfirst : ∀ j, j < i → badPosition (wordChars w) final j = false) :
    legal4 (quadOfWord w) final = .illegal i := by
  rw [legal4_illegal_iff]
  simp only [illegalAt_quadOfWord]
  exact ⟨hi, hfirst⟩

theorem statusFail_quadOfWord (w : Word) (i : Fin 4) :
    statusFail (causeOf (charAt (quadOfWord w) i)) = rejectStatus (wordChars w i) := by
  rw [statusFail_causeOf, charAt_quadOfWord]
  rfl

/-- The bytes of the decoded group, those the padding drops being 0 (R146, R147). -/
theorem decGroup_quadOfWord_toNat (p : Platform) {w : Word} {final : Bool} {pad : Nat}
    (h : legal4 (quadOfWord w) final = .legal pad) :
    (decGroup p (quadOfWord w) pad).b0.toNat = decodedByte (wordChars w) 0 ∧
    (decGroup p (quadOfWord w) pad).b1.toNat = (if pad ≤ 1 then decodedByte (wordChars w) 1 else 0) ∧
    (decGroup p (quadOfWord w) pad).b2.toNat = (if pad = 0 then decodedByte (wordChars w) 2 else 0) := by
  have hbytes := decGroup_toNat p (quadOfWord w) final pad h
  have hc := charAt_quadOfWord w
  have h0 := hc 0; have h1 := hc 1; have h2 := hc 2; have h3 := hc 3
  simp only [charAt] at h0 h1 h2 h3
  rwa [h0, h1, h2, h3] at hbytes

theorem triple_eq {t u : Triple} (h0 : t.b0.toNat = u.b0.toNat) (h1 : t.b1.toNat = u.b1.toNat)
    (h2 : t.b2.toNat = u.b2.toNat) : t = u := by
  cases t
  cases u
  rw [Triple.mk.injEq]
  exact ⟨BitVec.eq_of_toNat_eq h0, BitVec.eq_of_toNat_eq h1, BitVec.eq_of_toNat_eq h2⟩

/-- A legal group decodes to the same bytes on every platform: the sentinel is not used. -/
theorem decGroup_platform (p p' : Platform) {q : Quad} {final : Bool} {pad : Nat}
    (h : legal4 q final = .legal pad) : decGroup p q pad = decGroup p' q pad := by
  obtain ⟨h0, h1, h2⟩ := decGroup_toNat p q final pad h
  obtain ⟨h0', h1', h2'⟩ := decGroup_toNat p' q final pad h
  exact triple_eq (h0.trans h0'.symm) (h1.trans h1'.symm) (h2.trans h2'.symm)

/-! ### The words of decoded groups (R145, R150) -/

section
variable (p : Platform) {w x : Word} {final : Bool} {pad : Nat}

theorem packWord_decGroup (h : legal4 (quadOfWord w) final = .legal pad) :
    packWord 0 (decGroup p (quadOfWord w) pad).b2 (decGroup p (quadOfWord w) pad).b1
      (decGroup p (quadOfWord w) pad).b0 =
    BitVec.ofNat 32 (decodedByte (wordChars w) 0 + (if pad ≤ 1 then 256 * decodedByte (wordChars w) 1 else 0) +
      (if pad = 0 then 65536 * decodedByte (wordChars w) 2 else 0)) := by
  obtain ⟨h0, h1, h2⟩ := decGroup_quadOfWord_toNat p h
  simp only [packWord_eq, h0, h1, h2, mul_ite, mul_zero, BitVec.ofNat_eq_ofNat, BitVec.toNat_zero, add_zero]

/-- The four bytes of DOUT[0] of DEC8: a full group and the first byte of the second group. -/
theorem packWord_decGroup_low (h : legal4 (quadOfWord w) false = .legal 0)
    (hx : legal4 (quadOfWord x) final = .legal pad) :
    packWord (decGroup p (quadOfWord x) pad).b0 (decGroup p (quadOfWord w) 0).b2
      (decGroup p (quadOfWord w) 0).b1 (decGroup p (quadOfWord w) 0).b0 =
    BitVec.ofNat 32 (decodedByte (wordChars w) 0 + 256 * decodedByte (wordChars w) 1 +
      65536 * decodedByte (wordChars w) 2 + 16777216 * decodedByte (wordChars x) 0) := by
  obtain ⟨h0, h1, h2⟩ := decGroup_quadOfWord_toNat p h
  obtain ⟨hx0, -, -⟩ := decGroup_quadOfWord_toNat p hx
  simp only [packWord_eq, h0, h1, h2, hx0, zero_le, if_true]

/-- The bytes of DOUT[1] of DEC8: the other bytes of the second group. -/
theorem packWord_decGroup_high (hx : legal4 (quadOfWord x) final = .legal pad) :
    packWord 0 0 (decGroup p (quadOfWord x) pad).b2 (decGroup p (quadOfWord x) pad).b1 =
    BitVec.ofNat 32 ((if pad ≤ 1 then decodedByte (wordChars x) 1 else 0) +
      (if pad = 0 then 256 * decodedByte (wordChars x) 2 else 0)) := by
  obtain ⟨-, h1, h2⟩ := decGroup_quadOfWord_toNat p hx
  simp only [packWord_eq, h1, h2, mul_ite, mul_zero, BitVec.ofNat_eq_ofNat, BitVec.toNat_zero, add_zero]

end

/-! ### The decode group commands by the group check (R145, R150, R152) -/

/-- The state after a DEC4 on a legal group with padding count `pad`. -/
def acceptDec4 (q : Quad) (pad : Nat) (s : State) : State :=
  completeOk (3 - pad) (setDout 0 (packWord 0 (decGroup s.platform q pad).b2 (decGroup s.platform q pad).b1
    (decGroup s.platform q pad).b0) s)

/-- The state after a DEC8 on legal groups, the second with padding count `pad`. -/
def acceptDec8 (q r : Quad) (pad : Nat) (s : State) : State :=
  completeOk (6 - pad) (setDout 1 (packWord 0 0 (decGroup s.platform r pad).b2 (decGroup s.platform r pad).b1)
    (setDout 0 (packWord (decGroup s.platform r pad).b0 (decGroup s.platform q 0).b2 (decGroup s.platform q 0).b1
      (decGroup s.platform q 0).b0) s))

section
variable {s : State} {l : Latched} {w x : Word} {final : Bool} {i : Fin 4} {pad : Nat}

theorem exec_dec4_of_illegal (hp : s.phase = .busy l) (hw : l.din[0] = w)
    (h : legal4 (quadOfWord w) final = .illegal i) :
    exec (.dec4 final) s = .next (rejectDec4 (causeOf (charAt (quadOfWord w) i)) s) := by
  rw [exec, execDec4, onCommand_busy hp, hw, h]

theorem exec_dec4_of_legal (hp : s.phase = .busy l) (hw : l.din[0] = w)
    (h : legal4 (quadOfWord w) final = .legal pad) :
    exec (.dec4 final) s = .next (acceptDec4 (quadOfWord w) pad s) := by
  rw [exec, execDec4, onCommand_busy hp, hw, h]
  rfl

theorem exec_dec8_of_illegal_first (hp : s.phase = .busy l) (hw : l.din[0] = w)
    (h : legal4 (quadOfWord w) false = .illegal i) :
    exec (.dec8 final) s = .next (rejectDec8 (causeOf (charAt (quadOfWord w) i)) s) := by
  rw [exec, execDec8, onCommand_busy hp, hw, h]

theorem exec_dec8_of_illegal_second (hp : s.phase = .busy l) (hw : l.din[0] = w) (hx : l.din[1] = x)
    (h : legal4 (quadOfWord w) false = .legal 0) (h' : legal4 (quadOfWord x) final = .illegal i) :
    exec (.dec8 final) s = .next (rejectDec8 (causeOf (charAt (quadOfWord x) i)) s) := by
  rw [exec, execDec8, onCommand_busy hp, hw, hx, h, h']

theorem exec_dec8_of_legal (hp : s.phase = .busy l) (hw : l.din[0] = w) (hx : l.din[1] = x)
    (h : legal4 (quadOfWord w) false = .legal 0) (h' : legal4 (quadOfWord x) final = .legal pad) :
    exec (.dec8 final) s = .next (acceptDec8 (quadOfWord w) (quadOfWord x) pad s) := by
  rw [exec, execDec8, onCommand_busy hp, hw, hx, h, h']
  rfl

end

/-- Settles O30: the group check accepts, and the word of the decoded group is that of the arithmetic. -/
theorem dec4AcceptsLegalGroups : Obligations.Dec4AcceptsLegalGroups := by
  intro s l final c pad hp hc hlegal hpad
  obtain rfl : c = wordChars _ := hc
  obtain rfl : pad = charsPad (wordChars _) final := hpad
  have hcheck := legal4_quadOfWord_legal hlegal
  rw [exec_dec4_of_legal hp rfl hcheck, acceptDec4, packWord_decGroup s.platform hcheck]
  rfl

/-- Settles O31: the group check rejects at the first illegal position. -/
theorem dec4RejectsAtTheFirstIllegalPosition : Obligations.Dec4RejectsAtTheFirstIllegalPosition := by
  intro s l final c i hp hc hi hfirst
  obtain rfl : c = wordChars _ := hc
  rw [exec_dec4_of_illegal hp rfl (legal4_quadOfWord_illegal hi hfirst), ← statusFail_quadOfWord]
  rfl

/-- Settles O32: as for DEC4, the first group being full. -/
theorem dec8AcceptsLegalBlocks : Obligations.Dec8AcceptsLegalBlocks := by
  intro s l final c d pad hp hc hd hfirst hsecond hpad
  obtain rfl : c = wordChars _ := hc
  obtain rfl : d = wordChars _ := hd
  obtain rfl : pad = charsPad (wordChars _) final := hpad
  have hcheck := legal4_quadOfWord_legal hfirst
  have hcheck' := legal4_quadOfWord_legal hsecond
  rw [charsPad_nonfinal] at hcheck
  rw [exec_dec8_of_legal hp rfl rfl hcheck hcheck', acceptDec8, packWord_decGroup_low s.platform hcheck hcheck',
    packWord_decGroup_high s.platform hcheck']
  rfl

/-- Settles O33: the group that fails first gives the cause. -/
theorem dec8RejectsAtTheFirstIllegalPosition : Obligations.Dec8RejectsAtTheFirstIllegalPosition := by
  intro s l final c d i ch hp hc hd h
  obtain rfl : c = wordChars _ := hc
  obtain rfl : d = wordChars _ := hd
  rcases h with ⟨hi, hfirst, rfl⟩ | ⟨hlegal, hi, hfirst, rfl⟩
  · rw [exec_dec8_of_illegal_first hp rfl (legal4_quadOfWord_illegal hi hfirst), ← statusFail_quadOfWord]
    rfl
  · have hcheck := legal4_quadOfWord_legal hlegal
    rw [charsPad_nonfinal] at hcheck
    rw [exec_dec8_of_illegal_second hp rfl rfl hcheck (legal4_quadOfWord_illegal hi hfirst),
      ← statusFail_quadOfWord]
    rfl

/-! ### DEC8 as two DEC4s (R151) -/

@[simp] theorem rejectDec4_status (c : FailCause) (s : State) : (rejectDec4 c s).status = statusFail c := rfl

@[simp] theorem rejectDec8_status (c : FailCause) (s : State) : (rejectDec8 c s).status = statusFail c := rfl

@[simp] theorem acceptDec4_status (q : Quad) (pad : Nat) (s : State) : (acceptDec4 q pad s).status = statusOk := rfl

@[simp] theorem acceptDec8_status (q r : Quad) (pad : Nat) (s : State) :
    (acceptDec8 q r pad s).status = statusOk := rfl

/-- The bytes of a decoded group stand in the low lanes of DOUT[0] of DEC4. -/
theorem lane_acceptDec4 (q : Quad) (pad : Nat) (s : State) :
    lane (acceptDec4 q pad s).dout[0] 0 = (decGroup s.platform q pad).b0 ∧
    lane (acceptDec4 q pad s).dout[0] 1 = (decGroup s.platform q pad).b1 ∧
    lane (acceptDec4 q pad s).dout[0] 2 = (decGroup s.platform q pad).b2 := by
  have hdout : (acceptDec4 q pad s).dout[0] = packWord 0 (decGroup s.platform q pad).b2
      (decGroup s.platform q pad).b1 (decGroup s.platform q pad).b0 := Vector.getElem_set_self ..
  obtain ⟨h0, h1, h2, -⟩ := lane_packWord 0 (decGroup s.platform q pad).b2 (decGroup s.platform q pad).b1
    (decGroup s.platform q pad).b0
  rw [hdout]
  exact ⟨h0, h1, h2⟩

/-- The result of DEC8 on legal groups, from those of DEC4 on each in any two states. -/
theorem acceptDec8_of_acceptDec4 {q r : Quad} {final : Bool} {pad : Nat} (s s0 s1 : State)
    (hq : legal4 q false = .legal 0) (hr : legal4 r final = .legal pad) :
    (acceptDec8 q r pad s).outlen = (acceptDec4 q 0 s0).outlen + (acceptDec4 r pad s1).outlen ∧
    (acceptDec8 q r pad s).dout[0] = packWord (lane (acceptDec4 r pad s1).dout[0] 0)
      (lane (acceptDec4 q 0 s0).dout[0] 2) (lane (acceptDec4 q 0 s0).dout[0] 1)
      (lane (acceptDec4 q 0 s0).dout[0] 0) ∧
    (acceptDec8 q r pad s).dout[1] = packWord 0 0 (lane (acceptDec4 r pad s1).dout[0] 2)
      (lane (acceptDec4 r pad s1).dout[0] 1) := by
  obtain ⟨q0, q1, q2⟩ := lane_acceptDec4 q 0 s0
  obtain ⟨r0, r1, r2⟩ := lane_acceptDec4 r pad s1
  rw [q0, q1, q2, r0, r1, r2, decGroup_platform s0.platform s.platform hq,
    decGroup_platform s1.platform s.platform hr]
  refine ⟨?_, ?_, Vector.getElem_set_self ..⟩
  · have hpad : pad ≤ 2 := (legal4_shape r final pad hr).1
    have hsum : 6 - pad = (3 - 0) + (3 - pad) := by omega
    simp only [acceptDec8, acceptDec4, completeOk_outlen]
    rw [hsum, BitVec.ofNat_add]
  · simp [acceptDec8]

/-- Settles O34: by the answers of the group check on the two groups. -/
theorem dec8IsTwoDec4 : Obligations.Dec8IsTwoDec4 := by
  intro s s0 s1 t t0 t1 l l0 l1 final hp hp0 hp1 hw hx ht ht0 ht1
  cases h : legal4 (quadOfWord l.din[0]) false with
  | illegal i =>
    cases (exec_dec8_of_illegal_first hp rfl h).symm.trans ht
    cases (exec_dec4_of_illegal hp0 hw h).symm.trans ht0
    simp [fail_flag_fail]
  | legal n =>
    obtain rfl : n = 0 := (legal4_shape _ _ n h).2.1 rfl
    cases (exec_dec4_of_legal hp0 hw h).symm.trans ht0
    cases h' : legal4 (quadOfWord l.din[1]) final with
    | illegal i =>
      cases (exec_dec8_of_illegal_second hp rfl rfl h h').symm.trans ht
      cases (exec_dec4_of_illegal hp1 hx h').symm.trans ht1
      simp [fail_flag_fail, flags_ok]
    | legal pad =>
      cases (exec_dec8_of_legal hp rfl rfl h h').symm.trans ht
      cases (exec_dec4_of_legal hp1 hx h').symm.trans ht1
      simp only [acceptDec4_status, acceptDec8_status, flags_ok]
      exact ⟨rfl, nofun, nofun, fun _ _ => acceptDec8_of_acceptDec4 s s0 s1 h h'⟩

end Sys2Proof.Machine
end

section
/-! ## The alignment class (43_buffer.md R170, R171) -/

namespace Sys2Proof.Machine

/-- Only bits 1:0 of an address enter its alignment class. -/
theorem alignWord_of_residue {a : Word} {r : Nat} (dir : Side) (h : a.toNat % 4 = r) :
    alignWord a dir = alignWord (BitVec.ofNat 32 r) dir := by
  have hbits : a.extractLsb' 0 2 = (BitVec.ofNat 32 r).extractLsb' 0 2 := by
    apply BitVec.eq_of_toNat_eq
    simp only [BitVec.extractLsb'_toNat, BitVec.toNat_ofNat, Nat.shiftRight_zero]
    omega
  simp only [alignWord, alignClass, hbits]

theorem exec_aclass {s : State} {l : Latched} (dir : Side) (hp : s.phase = .busy l) :
    exec (.aclass dir) s = .next (completeOk 1 (setDout 0 (alignWord l.src dir) s)) := by
  rw [exec, execAclass, onCommand_busy hp]

/-- Settles O35: each side on each of the four residues. -/
theorem aclassResult : Obligations.AclassResult := by
  refine ⟨by decide, by decide, fun s l dir x hp hx => ?_⟩
  have hword : alignWord l.src dir = x := by
    rcases hx with ⟨rfl, hx⟩ | ⟨rfl, hx⟩ <;>
      rcases hx with ⟨hr, rfl⟩ | ⟨hr, rfl⟩ | ⟨hr, rfl⟩ | ⟨hr, rfl⟩ <;> exact alignWord_of_residue _ hr
  rw [exec_aclass dir hp, hword]
  rfl

end Sys2Proof.Machine
end

section
/-! ## The checks of ENCODE and DECODE before their data (43_buffer.md R175, R180; 60_exceptions.md R206)

A length check, then the range and overlap checks on the two ranges; the first that fails is the outcome. -/

namespace Sys2Proof.Machine

/-! ### The range and overlap checks -/

theorem rangeCheck_addressRange {j : Job} (h : 4294967296 < j.src + j.len ∨ 4294967296 < j.dst + j.outMax) :
    rangeCheck j = some .addressRange := if_pos h

theorem rangeCheck_overlap {j : Job} (hs : j.src + j.len ≤ 4294967296) (hd : j.dst + j.outMax ≤ 4294967296)
    (h : j.src < j.dst + j.outMax) (h' : j.dst < j.src + j.len) : rangeCheck j = some .overlap := by
  have hin : ¬ (Config.memorySize < j.src + j.len ∨ Config.memorySize < j.dst + j.outMax) := by
    rintro (hlt | hlt)
    · exact absurd hlt hs.not_gt
    · exact absurd hlt hd.not_gt
  rw [rangeCheck, if_neg hin, if_pos ⟨h, h'⟩]

theorem dataPhase_perr {s : State} {j : Job} {c : PerrCause} (run : Out) (h : rangeCheck j = some c) :
    dataPhase s j run = .next (completePerr c s) := by
  rw [dataPhase, h]

/-! ### The length checks -/

section
variable {s : State} {l : Latched}

theorem exec_encode_of_empty (hp : s.phase = .busy l) (h : l.len.toNat = 0) :
    exec .encode s = .next (completePerr .zeroLength s) := by
  have hlen : l.len = 0 := BitVec.eq_of_toNat_eq h
  rw [exec, execEncode, onCommand_busy hp]
  exact if_pos hlen

theorem exec_decode_of_bad_length (hp : s.phase = .busy l) (h : badDecodeLength l.len.toNat = true) :
    exec .decode s = .next (completeFail .malformedPadding s) := by
  rw [exec, execDecode, onCommand_busy hp, if_pos h]

theorem badDecodeLength_eq_true {n : Nat} : badDecodeLength n = true ↔ n = 0 ∨ n % 4 ≠ 0 := by
  simp [badDecodeLength]

end

/-- Settles O37: one check per clause. -/
theorem encodeReportsProgrammerErrors : Obligations.EncodeReportsProgrammerErrors := by
  rintro s l _ _ hp rfl rfl
  refine ⟨fun h0 => exec_encode_of_empty hp h0, fun h0 hout => ?_, fun h0 hs hd h h' => ?_⟩
  · rw [exec_encode_eq hp (Nat.pos_of_ne_zero h0), dataPhase_perr _ (rangeCheck_addressRange (j := encodeJob l) hout)]
    rfl
  · rw [exec_encode_eq hp (Nat.pos_of_ne_zero h0), dataPhase_perr _ (rangeCheck_overlap (j := encodeJob l) hs hd h h')]
    rfl

/-- Settles O38: one check per clause. -/
theorem decodeReportsLengthRangeAndOverlap : Obligations.DecodeReportsLengthRangeAndOverlap := by
  rintro s l _ _ hp rfl rfl
  refine ⟨fun hbad => exec_decode_of_bad_length hp (badDecodeLength_eq_true.2 hbad), fun h0 h4 hout => ?_,
    fun h0 h4 hs hd h h' => ?_⟩
  · rw [exec_decode_eq hp (Nat.pos_of_ne_zero h0) h4,
      dataPhase_perr _ (rangeCheck_addressRange (j := decodeJob l) hout)]
    rfl
  · rw [exec_decode_eq hp (Nat.pos_of_ne_zero h0) h4,
      dataPhase_perr _ (rangeCheck_overlap (j := decodeJob l) hs hd h h')]
    rfl

end Sys2Proof.Machine
end

section
/-! ## ENCODE (43_buffer.md R175, R176)

The text of the source, which a completed ENCODE leaves at the destination, group by group and block by block. -/

namespace Sys2Proof.Machine

/-! ### The source bytes -/

/-- The bytes a buffer command reads: its source range. -/
def sourceBytes (l : Latched) (s : State) : List Byte := readBytes s.mem l.src.toNat l.len.toNat

@[simp] theorem sourceBytes_length (l : Latched) (s : State) : (sourceBytes l s).length = l.len.toNat :=
  readBytes_length ..

theorem sourceBytes_getElem (l : Latched) (s : State) {k : Nat} (h : k < (sourceBytes l s).length) :
    (sourceBytes l s)[k].toNat = byteAt s l.src.toNat k :=
  congrArg BitVec.toNat (readBytes_getElem s.mem l.src.toNat l.len.toNat k h)

/-- Behind the source there is nothing: a missing byte of the last group is 0. -/
theorem sourceBytes_getD (l : Latched) (s : State) (k : Nat) :
    ((sourceBytes l s).getD k 0).toNat = if k < l.len.toNat then byteAt s l.src.toNat k else 0 := by
  by_cases hk : k < l.len.toNat
  · have hin : k < (sourceBytes l s).length := by simpa using hk
    rw [if_pos hk, List.getD_eq_getElem _ _ hin, sourceBytes_getElem]
  · rw [if_neg hk, List.getD_eq_default _ _ (by simpa using hk)]
    rfl

theorem sourceBytes_ne_nil {l : Latched} (s : State) (h : 0 < l.len.toNat) : sourceBytes l s ≠ [] := by
  rw [← List.length_pos_iff, sourceBytes_length]
  exact h

/-! ### The outcome of ENCODE -/

/-- The state after an ENCODE that has written its text. -/
def storeText (l : Latched) (s : State) : State :=
  completeOk (encLen l.len.toNat) (storeBytes l.dst.toNat (encodeText (sourceBytes l s)) s)

section
variable {s t : State} {l : Latched}

theorem exec_encode_backed (hp : s.phase = .busy l) (h0 : 0 < l.len.toNat) (hc : rangesClear (encodeJob l))
    (hb : rangesBacked s.platform (encodeJob l)) : exec .encode s = .next (storeText l s) := by
  obtain ⟨hplat, hread, hwrite⟩ := hb
  have hall : (allFrom (admitsRead s.platform) (encodeJob l).src (encodeJob l).len &&
      allFrom (admitsWrite s.platform) (encodeJob l).dst (encodeJob l).outMax) = true := by
    rw [Bool.and_eq_true, allFrom_iff, allFrom_iff]
    exact ⟨hread, hwrite⟩
  rw [exec_encode_eq hp h0, dataPhase_reached _ hc hplat, if_pos hall]
  rfl

theorem statusPerr_ne_ok (c : PerrCause) : statusPerr c ≠ statusOk := by cases c <;> decide

theorem statusFail_ne_ok (c : FailCause) : statusFail c ≠ statusOk := by cases c <;> decide

/-- An ENCODE that succeeds has passed its checks and written its text. -/
theorem exec_encode_success (hp : s.phase = .busy l) (h : exec .encode s = .next t) (hidle : t.phase = .idle)
    (hok : t.status = statusOk) : 0 < l.len.toNat ∧ rangesClear (encodeJob l) ∧ t = storeText l s := by
  rw [exec] at h
  rcases execEncode_cases s l hp with ⟨c, h'⟩ | ⟨r, -, h'⟩ | h' | ⟨h0, hr, -, h'⟩ <;> cases h'.symm.trans h
  · exact absurd hok (statusPerr_ne_ok c)
  · cases hidle
  · have hne : l.len.toNat ≠ 0 := fun hz => h0 (BitVec.eq_of_toNat_eq hz)
    exact ⟨Nat.pos_of_ne_zero hne, (rangeCheck_eq_none _).1 hr, rfl⟩

/-- OUTLEN holds the length of the text: a destination of 2^32 bytes would meet the source. -/
theorem encLen_lt (h0 : 0 < l.len.toNat) (hc : rangesClear (encodeJob l)) : encLen l.len.toNat < 4294967296 := by
  obtain ⟨hs, hd, happart⟩ := hc
  simp only [encodeJob] at hs hd happart
  omega

theorem encodeText_sourceBytes_length (l : Latched) (s : State) :
    (encodeText (sourceBytes l s)).length = encLen l.len.toNat := by
  rw [encodeText_length, sourceBytes_length]

theorem encodeText_within_memory (s : State) (hc : rangesClear (encodeJob l)) :
    l.dst.toNat + (encodeText (sourceBytes l s)).length ≤ Config.memorySize := by
  rw [encodeText_sourceBytes_length]
  exact hc.2.1

theorem storeText_wf (hw : Memory.wf s.mem = true) (hc : rangesClear (encodeJob l)) :
    Memory.wf (storeText l s).mem = true := writeBytes_wf s.mem l.dst.toNat _ hw (encodeText_within_memory s hc)

/-- The text stands at the destination. -/
theorem byteAt_storeText (hw : Memory.wf s.mem = true) (hc : rangesClear (encodeJob l)) {k : Nat}
    (hk : k < (encodeText (sourceBytes l s)).length) :
    byteAt (storeText l s) l.dst.toNat k = (encodeText (sourceBytes l s))[k].toNat :=
  congrArg BitVec.toNat (readByte_writeBytes_in s.mem l.dst.toNat k _ hw (encodeText_within_memory s hc) hk)

/-- A character of the text, by the arithmetic on the bytes of its group. -/
theorem encodeText_sourceBytes_getElem {g : Nat} {j : Fin 4}
    (h : 4 * g + j.val < (encodeText (sourceBytes l s)).length) :
    (encodeText (sourceBytes l s))[4 * g + j.val].toNat =
      groupChar (min 3 (l.len.toNat - 3 * g)) (byteAt s l.src.toNat (3 * g))
        (if 3 * g + 1 < l.len.toNat then byteAt s l.src.toNat (3 * g + 1) else 0)
        (if 3 * g + 2 < l.len.toNat then byteAt s l.src.toNat (3 * g + 2) else 0) j := by
  have hg : 3 * g < l.len.toNat := by
    rw [encodeText_sourceBytes_length, encLen] at h
    omega
  have hn : min 3 (l.len.toNat - 3 * g) = 1 ∨ min 3 (l.len.toNat - 3 * g) = 2 ∨
      min 3 (l.len.toNat - 3 * g) = 3 := by omega
  rw [encodeText_getElem, sourceBytes_length, encGroup_char _ _ hn]
  simp only [inputGroup, sourceBytes_getD, if_pos hg]

end

/-- Settles O36: each character of the text stands at its place. -/
theorem encodeWritesTheText : Obligations.EncodeWritesTheText := by
  rintro s l _ hp hw rfl h0 hc hb
  have hexec := exec_encode_backed hp h0 hc hb
  refine ⟨storeText l s, hexec, rfl, fun g j hg hj => ?_, execEncode_sameOutside hp hexec⟩
  have hk : 4 * g + j < (encodeText (sourceBytes l s)).length := by
    rw [encodeText_sourceBytes_length, encLen]
    omega
  rw [byteAt_storeText hw hc hk]
  exact encodeText_sourceBytes_getElem (j := ⟨j, hj⟩) hk

/-! ### Blocks of twelve bytes (R176) -/

theorem lanes_wordOfQuad (q : Quad) : ((List.finRange 4).map fun k => lane (wordOfQuad q) k.val) = q.chars := by
  obtain ⟨h0, h1, h2, h3⟩ := lane_packWord q.c3 q.c2 q.c1 q.c0
  exact congrArg₂ List.cons h0 (congrArg₂ List.cons h1 (congrArg₂ List.cons h2 (congrArg₂ List.cons h3 rfl)))

/-- The four lanes of a word of DOUT after ENC12 are the characters of its group. -/
theorem lanes_dout_enc12 {s t : State} {l : Latched} (hp : s.phase = .busy l) (h : exec .enc12 s = .next t)
    (g : Fin 4) : ((List.finRange 4).map fun k => lane t.dout[g] k.val) = (encGroup 3 (blockGroup l.din g)).chars := by
  rw [dout_of_exec_enc12 hp h g]
  exact lanes_wordOfQuad _

/-- Settles O44: the block is four full groups, and a word of DOUT holds the text of each. -/
theorem encodedTextIsBlockwiseEnc12 : Obligations.EncodedTextIsBlockwiseEnc12 := by
  intro s t l more hp h
  have hlanes := lanes_dout_enc12 hp h
  calc encodeText (((List.finRange 12).map fun k => groupByte l.din k) ++ more)
      = (encGroup 3 (blockGroup l.din 0)).chars ++ ((encGroup 3 (blockGroup l.din 1)).chars ++
          ((encGroup 3 (blockGroup l.din 2)).chars ++ ((encGroup 3 (blockGroup l.din 3)).chars ++
            encodeText more))) := rfl
    _ = ((List.finRange 16).map fun k => lane t.dout[k.val / 4] (k.val % 4)) ++ encodeText more := by
      rw [← hlanes 0, ← hlanes 1, ← hlanes 2, ← hlanes 3]
      rfl

end Sys2Proof.Machine
end

section
/-! ## The text of a DECODE (43_buffer.md R180 to R183)

The verdict on the source, by the illegal positions of the whole text and on every platform, and the two states in which
a DECODE that reaches its data phase completes. -/

namespace Sys2Proof.Machine

/-! ### The verdict on a text -/

/-- The sentinel enters no verdict: a legal group decodes to the same bytes on every platform. -/
theorem decodeText_platform (p p' : Platform) (text : List Byte) : decodeText p text = decodeText p' text := by
  induction text using decodeText.induct with
  | case1 c0 c1 c2 c3 rest pos hl => simp only [decodeText, hl]
  | case2 c0 c1 c2 c3 rest pad hl he =>
    simp only [decodeText, hl, realBytes, decGroup_platform p p' hl]
    rw [if_pos he, if_pos he]
  | case3 c0 c1 c2 c3 rest pad hl he ih => simp only [decodeText, hl, realBytes, decGroup_platform p p' hl, ih]
  | case4 text htext => rw [decodeText, decodeText] <;> exact htext

/-- A rejected text in memory: its position is the first illegal one of the whole text, and the character there gives
the cause (42_decode.md R144). -/
theorem decodeText_rejected_first {s : State} {a n pos : Nat} {p : Platform} {c : FailCause} (hn : n % 4 = 0)
    (h : decodeText p (readBytes s.mem a n) = .rejected pos c) :
    (∀ k, k < pos → badTextPosition (byteAt s a) n k = false) ∧ statusFail c = rejectStatus (byteAt s a pos) := by
  obtain ⟨g, i, rfl, hlen, hleg, rfl, hbefore⟩ := decodeText_rejected p _ pos c h
  rw [readBytes_length] at hlen hleg
  refine ⟨fun k hk => ?_, ?_⟩
  · have hpos := illegalAt_textGroup s a n (k / 4) hn (by omega) ⟨k % 4, by omega⟩
    simp only [Nat.div_add_mod] at hpos
    rw [← hpos]
    rcases Nat.lt_or_ge (k / 4) g with hlt | hge
    · obtain ⟨pad, hlegal⟩ := hbefore (k / 4) hlt
      have hnonfinal : ¬ 4 * (k / 4) + 4 = n := by omega
      rw [decide_eq_false hnonfinal]
      exact ((legal4_legal_iff _ _ _).1 hlegal).1 _
    · obtain rfl : g = k / 4 := by omega
      exact ((legal4_illegal_iff _ _ _).1 hleg).2 ⟨k % 4, by omega⟩ (Fin.lt_def.2 (by simp only; omega))
  · rw [statusFail_causeOf, charAt_textGroup s a n g i (by omega)]

section
variable {s : State} {l : Latched}

/-- The first illegal position of the source is the position of the verdict. -/
theorem decodeText_of_illegal {k : Nat} (h4 : l.len.toNat % 4 = 0) (h0 : 0 < l.len.toNat) (hk : k < l.len.toNat)
    (hbad : badTextPosition (byteAt s l.src.toNat) l.len.toNat k = true)
    (hfirst : ∀ k', k' < k → badTextPosition (byteAt s l.src.toNat) l.len.toNat k' = false) :
    ∃ c, decodeText s.platform (sourceBytes l s) = .rejected k c ∧
      statusFail c = rejectStatus (byteAt s l.src.toNat k) := by
  cases ht : decodeText s.platform (sourceBytes l s) with
  | accepted bytes pad =>
    obtain ⟨hlegal, -⟩ := decodeText_accepted_memory s l.src.toNat l.len.toNat h4 h0 s.platform bytes pad ht
    rw [hlegal k hk] at hbad
    cases hbad
  | rejected pos c =>
    obtain ⟨-, hpos⟩ := decodeText_rejected_memory h4 ht
    obtain ⟨hbefore, hstatus⟩ := decodeText_rejected_first h4 ht
    obtain rfl : pos = k := by
      rcases Nat.lt_trichotomy pos k with hlt | heq | hgt
      · rw [hfirst pos hlt] at hpos
        cases hpos
      · exact heq
      · rw [hbefore k hgt] at hbad
        cases hbad
    exact ⟨c, rfl, hstatus⟩

/-- A source without an illegal position is accepted. -/
theorem decodeText_of_legal (h4 : l.len.toNat % 4 = 0)
    (hlegal : ∀ k, k < l.len.toNat → badTextPosition (byteAt s l.src.toNat) l.len.toNat k = false) :
    ∃ bytes pad, decodeText s.platform (sourceBytes l s) = .accepted bytes pad := by
  cases ht : decodeText s.platform (sourceBytes l s) with
  | accepted bytes pad => exact ⟨bytes, pad, rfl⟩
  | rejected pos c =>
    obtain ⟨hlt, hpos⟩ := decodeText_rejected_memory h4 ht
    rw [hlegal pos hlt] at hpos
    cases hpos

end

/-! ### The outcomes of DECODE -/

/-- The state after a DECODE that has rejected its text (R183). -/
def rejectText (l : Latched) (c : FailCause) (s : State) : State :=
  completeFail c (scramble l.dst.toNat (decMax l.len.toNat) (spend 1 s))

/-- The state after a DECODE that has stored the bytes of its text (R182). -/
def storeDecoded (l : Latched) (bytes : List Byte) (pad : Nat) (s : State) : State :=
  completeOk (decMax l.len.toNat - pad) (scramble (l.dst.toNat + (decMax l.len.toNat - pad)) pad
    (spend 1 (storeBytes l.dst.toNat bytes s)))

section
variable {s t : State} {l : Latched} {bytes : List Byte} {pad pos : Nat} {c : FailCause}

theorem readBytes_decodeJob (l : Latched) (s : State) :
    readBytes s.mem (decodeJob l).src (decodeJob l).len = sourceBytes l s := rfl

/-- The size of an accepted source: its bytes and its padding fill the destination. -/
theorem sourceBytes_accepted_size (h0 : 0 < l.len.toNat) (h4 : l.len.toNat % 4 = 0)
    (h : decodeText s.platform (sourceBytes l s) = .accepted bytes pad) :
    bytes.length = decMax l.len.toNat - pad ∧ pad ≤ decMax l.len.toNat :=
  decodeText_accepted_size ((badDecodeLength_eq_false _).2 ⟨h0.ne', h4⟩) h

theorem exec_decode_rejected (hp : s.phase = .busy l) (h0 : 0 < l.len.toNat) (h4 : l.len.toNat % 4 = 0)
    (hc : rangesClear (decodeJob l)) (hb : rangesBacked s.platform (decodeJob l))
    (h : decodeText s.platform (sourceBytes l s) = .rejected pos c) :
    exec .decode s = .next (rejectText l c s) := by
  have hread : 4 * (pos / 4 + 1) ≤ (decodeJob l).len := by
    obtain ⟨hlt, -⟩ := decodeText_rejected_memory h4 h
    simp only [decodeJob]
    omega
  have hdata : decodeData l (decodeJob l) s = rejectDecode l (decodeJob l) pos c s := by
    rw [decodeData, readBytes_decodeJob, h]
  rw [exec_decode_eq hp h0 h4, dataPhase_reached _ hc hb.1, hdata, rejectDecode_backed l _ pos c s hb hread]
  rfl

theorem exec_decode_accepted (hp : s.phase = .busy l) (h0 : 0 < l.len.toNat) (h4 : l.len.toNat % 4 = 0)
    (hc : rangesClear (decodeJob l)) (hb : rangesBacked s.platform (decodeJob l))
    (h : decodeText s.platform (sourceBytes l s) = .accepted bytes pad) :
    exec .decode s = .next (storeDecoded l bytes pad s) := by
  obtain ⟨-, hpad⟩ := sourceBytes_accepted_size h0 h4 h
  have hdata : decodeData l (decodeJob l) s = acceptDecode l (decodeJob l) bytes pad s := by
    rw [decodeData, readBytes_decodeJob, h]
  rw [exec_decode_eq hp h0 h4, dataPhase_reached _ hc hb.1, hdata, acceptDecode_backed l _ bytes pad s hb hpad]
  rfl

/-- A DECODE that succeeds has accepted its text and stored its bytes. -/
theorem exec_decode_success (hp : s.phase = .busy l) (h : exec .decode s = .next t) (hidle : t.phase = .idle)
    (hok : t.status = statusOk) : 0 < l.len.toNat ∧ l.len.toNat % 4 = 0 ∧
    ∃ bytes pad, decodeText s.platform (sourceBytes l s) = .accepted bytes pad ∧ t = storeDecoded l bytes pad s := by
  rw [exec] at h
  rcases execDecode_cases s l hp with ⟨-, h'⟩ | ⟨c, h'⟩ | ⟨r, -, h'⟩ | ⟨hb, -, -, h'⟩ <;>
    cases h'.symm.trans h
  · exact absurd hok (statusFail_ne_ok _)
  · exact absurd hok (statusPerr_ne_ok c)
  · obtain ⟨hne, h4⟩ := (badDecodeLength_eq_false _).1 hb
    rcases decodeData_cases l (decodeJob l) s with hd | ⟨pos, c, -, hd⟩ | ⟨bytes, pad, ht, hd⟩
    · rw [hd] at hidle
      cases hidle
    · rw [hd] at hok
      exact absurd hok (statusFail_ne_ok c)
    · exact ⟨Nat.pos_of_ne_zero hne, h4, bytes, pad, ht, hd⟩

/-! ### The destination after DECODE -/

theorem readByte_rejectText (hw : Memory.wf s.mem = true) (hc : rangesClear (decodeJob l)) {x : Nat}
    (hx : x < decMax l.len.toNat) :
    readByte (rejectText l c s).mem (l.dst.toNat + x) = Config.freeByte (s.draws + 1 + x) :=
  readByte_scramble_in l.dst.toNat (decMax l.len.toNat) x (spend 1 s) hw hc.2.1 hx

theorem storedBytes_wf (hw : Memory.wf s.mem = true) (hc : rangesClear (decodeJob l))
    (hlen : bytes.length = decMax l.len.toNat - pad) : Memory.wf (storeBytes l.dst.toNat bytes s).mem = true := by
  have hin : l.dst.toNat + decMax l.len.toNat ≤ Config.memorySize := hc.2.1
  exact writeBytes_wf s.mem l.dst.toNat bytes hw (by omega)

/-- The decoded bytes stand at the destination. -/
theorem byteAt_storeDecoded (hw : Memory.wf s.mem = true) (hc : rangesClear (decodeJob l))
    (hlen : bytes.length = decMax l.len.toNat - pad) {k : Nat} (hk : k < bytes.length) :
    byteAt (storeDecoded l bytes pad s) l.dst.toNat k = bytes[k].toNat := by
  have hin : l.dst.toNat + decMax l.len.toNat ≤ Config.memorySize := hc.2.1
  refine congrArg BitVec.toNat ?_
  calc readByte (storeDecoded l bytes pad s).mem (l.dst.toNat + k)
      = readByte (storeBytes l.dst.toNat bytes s).mem (l.dst.toNat + k) :=
        readByte_scramble_out _ _ _ _ (.inl (by omega))
    _ = bytes[k] := readByte_writeBytes_in s.mem l.dst.toNat k bytes hw (by omega) hk

/-- Behind the decoded bytes stand free values. -/
theorem readByte_storeDecoded_tail (hw : Memory.wf s.mem = true) (hc : rangesClear (decodeJob l))
    (hlen : bytes.length = decMax l.len.toNat - pad) (hpad : pad ≤ decMax l.len.toNat) {i : Nat} (hi : i < pad) :
    readByte (storeDecoded l bytes pad s).mem (l.dst.toNat + (decMax l.len.toNat - pad + i)) =
      Config.freeByte (s.draws + 1 + i) := by
  have hin : l.dst.toNat + decMax l.len.toNat ≤ Config.memorySize := hc.2.1
  rw [← Nat.add_assoc]
  exact readByte_scramble_in _ pad i (spend 1 (storeBytes l.dst.toNat bytes s)) (storedBytes_wf hw hc hlen)
    (by omega) hi

end

/-- Settles O41: the verdict is a rejection at the first illegal position. -/
theorem decodeRejectsIllegalText : Obligations.DecodeRejectsIllegalText := by
  rintro s l _ k _ hp hw rfl h0 h4 hc hb rfl hk hbad hfirst
  obtain ⟨c, hverdict, hstatus⟩ := decodeText_of_illegal h4 h0 hk hbad hfirst
  have hexec := exec_decode_rejected hp h0 h4 hc hb hverdict
  refine ⟨rejectText l c s, hexec, ?_, fun x hx => ?_, execDecode_sameOutside hp hexec⟩
  · rw [← hstatus]
    rfl
  · have hdraws : (rejectText l c s).draws = s.draws + 1 + decMax l.len.toNat := rfl
    refine ⟨s.draws + 1 + x, by omega, ?_, readByte_rejectText hw hc hx⟩
    rw [hdraws, decMax]
    omega

/-- Settles O42: the verdict is an acceptance with the bytes of the groups. -/
theorem decodeAcceptsLegalText : Obligations.DecodeAcceptsLegalText := by
  rintro s l _ _ _ hp hw rfl h0 h4 hc hb rfl hlegal rfl
  obtain ⟨bytes, pad, hverdict⟩ := decodeText_of_legal h4 hlegal
  have hexec := exec_decode_accepted hp h0 h4 hc hb hverdict
  obtain ⟨hlen, hpad⟩ := sourceBytes_accepted_size h0 h4 hverdict
  obtain ⟨-, rfl, -, -, hbytes⟩ :=
    decodeText_accepted_memory s l.src.toNat l.len.toNat h4 h0 s.platform bytes pad hverdict
  refine ⟨_, hexec, rfl, fun g j hj hk => ?_, fun x hx hx' => ?_, execDecode_sameOutside hp hexec⟩
  · have hk' : 3 * g + j < bytes.length := hlen ▸ hk
    rw [byteAt_storeDecoded hw hc hlen hk']
    exact hbytes g j hj hk'
  · obtain ⟨i, rfl⟩ := Nat.exists_eq_add_of_le hx
    have hi : i < textPad (byteAt s l.src.toNat) l.len.toNat := by
      rw [decMax] at hpad
      omega
    exact ⟨s.draws + 1 + i, by omega, Nat.add_lt_add_left hi _,
      readByte_storeDecoded_tail hw hc hlen hpad hi⟩

end Sys2Proof.Machine
end

section
/-! ## The laws of the buffer commands (43_buffer.md R172, R186, R187)

The length laws, the round trip, and that alignment cannot be observed: each from the state in which a buffer command
completes. -/

namespace Sys2Proof.Machine

/-! ### The length laws (R187) -/

section
variable {s : State} {l : Latched}

theorem storeText_outlen_toNat (s : State) (h0 : 0 < l.len.toNat) (hc : rangesClear (encodeJob l)) :
    (storeText l s).outlen.toNat = encLen l.len.toNat :=
  Nat.mod_eq_of_lt (encLen_lt h0 hc)

theorem decMax_sub_lt (l : Latched) (pad : Nat) : decMax l.len.toNat - pad < 4294967296 := by
  have := l.len.isLt
  rw [decMax]
  omega

theorem storeDecoded_outlen_toNat (l : Latched) (bytes : List Byte) (pad : Nat) (s : State) :
    (storeDecoded l bytes pad s).outlen.toNat = decMax l.len.toNat - pad :=
  Nat.mod_eq_of_lt (decMax_sub_lt l pad)

theorem isAlphabet_alphabetChar : ∀ v, v < 64 → isAlphabet (alphabetChar v) = true := by decide

theorem groupChar_alphabet_or_pad (n b0 b1 b2 j : Nat) :
    isAlphabet (groupChar n b0 b1 b2 j) = true ∨ groupChar n b0 b1 b2 j = 0x3D := by
  rw [groupChar]
  split_ifs with hj
  · exact .inl (isAlphabet_alphabetChar _ (Nat.mod_lt _ (by decide)))
  · exact .inr rfl

theorem encodeText_alphabet_or_pad {k : Nat} (hk : k < (encodeText (sourceBytes l s)).length) :
    isAlphabet (encodeText (sourceBytes l s))[k].toNat = true ∨ (encodeText (sourceBytes l s))[k].toNat = 0x3D := by
  have hk' : 4 * (k / 4) + k % 4 < (encodeText (sourceBytes l s)).length := by rwa [Nat.div_add_mod]
  have hchar := encodeText_sourceBytes_getElem (j := ⟨k % 4, Nat.mod_lt _ (by decide)⟩) hk'
  simp only [Nat.div_add_mod] at hchar
  rw [hchar]
  exact groupChar_alphabet_or_pad ..

end

/-- Settles O46: OUTLEN counts what the command has written. -/
theorem successfulBufferCommandsObeyTheLengthLaws : Obligations.SuccessfulBufferCommandsObeyTheLengthLaws := by
  refine ⟨fun s t l hp h hidle hok => ?_, fun s t l hp h hidle hok => ?_⟩
  · obtain ⟨h0, hc, rfl⟩ := exec_encode_success hp h hidle hok
    have hlen := storeText_outlen_toNat s h0 hc
    refine ⟨hlen, fun hw k hk => ?_⟩
    rw [hlen, ← encodeText_sourceBytes_length l s] at hk
    rw [byteAt_storeText hw hc hk]
    exact encodeText_alphabet_or_pad hk
  · obtain ⟨h0, h4, bytes, pad, hverdict, rfl⟩ := exec_decode_success hp h hidle hok
    obtain ⟨-, hpad, -⟩ := decodeText_accepted_memory s l.src.toNat l.len.toNat h4 h0 s.platform bytes pad hverdict
    rw [storeDecoded_outlen_toNat, hpad]
    rfl

/-! ### The round trip (R186) -/

/-- The source of a command that points at the text of an ENCODE is that text. -/
theorem sourceBytes_of_text {s u : State} {l m : Latched} (hw : Memory.wf s.mem = true)
    (hc : rangesClear (encodeJob l)) (hmem : u.mem = (storeText l s).mem) (hsrc : m.src = l.dst)
    (hlen : m.len.toNat = encLen l.len.toNat) : sourceBytes m u = encodeText (sourceBytes l s) := by
  have hlength := encodeText_sourceBytes_length l s
  refine List.ext_getElem (by rw [sourceBytes_length, hlen, hlength]) fun k h1 h2 => BitVec.eq_of_toNat_eq ?_
  rw [sourceBytes_getElem, ← byteAt_storeText hw hc h2, byteAt, byteAt, hmem, hsrc]

/-- Settles O43: the text decodes to the source, with as much padding as the last group lacks bytes. -/
theorem decodeOfEncodeIsTheIdentity : Obligations.DecodeOfEncodeIsTheIdentity := by
  rintro s t u l m _ hp hw rfl - ht hidle hok hpu hmem hsrc hlen hc hb
  obtain ⟨h0, hce, rfl⟩ := exec_encode_success hp ht hidle hok
  have hlen' : m.len.toNat = encLen l.len.toNat := by
    rw [hlen]
    exact Nat.mod_eq_of_lt (encLen_lt h0 hce)
  have h0' : 0 < m.len.toNat := by rw [hlen', encLen]; omega
  have h4 : m.len.toNat % 4 = 0 := by rw [hlen', encLen]; omega
  have hverdict := decodeText_encodeText u.platform (sourceBytes l s) (sourceBytes_ne_nil s h0)
  rw [← sourceBytes_of_text hw hce hmem hsrc hlen', sourceBytes_length, ← hlen'] at hverdict
  obtain ⟨hsize, hpad⟩ := sourceBytes_accepted_size h0' h4 hverdict
  have hwu : Memory.wf u.mem = true := hmem ▸ storeText_wf hw hce
  refine ⟨_, exec_decode_accepted hpu h0' h4 hc hb hverdict, rfl, ?_, fun k hk => ?_⟩
  · apply BitVec.eq_of_toNat_eq
    rw [storeDecoded_outlen_toNat, ← hsize, sourceBytes_length]
  · have hk' : k < (sourceBytes l s).length := by rwa [sourceBytes_length]
    rw [byteAt_storeDecoded hwu hc hsize hk', sourceBytes_getElem]

/-! ### Alignment (R172) -/

/-- A buffer command runs on a canonical memory, its ranges clear and backed. -/
structure Runnable (s : State) (l : Latched) (j : Job) : Prop where
  phase  : s.phase = .busy l
  memWf  : Memory.wf s.mem = true
  clear  : rangesClear j
  backed : rangesBacked s.platform j

/-- Two completed buffer commands show the same: STATUS, OUTLEN and the destination bytes OUTLEN counts. -/
def SameResult (l l' : Latched) (t t' : State) : Prop :=
  t'.status = t.status ∧ t'.outlen = t.outlen ∧
    ∀ k, k < t.outlen.toNat → byteAt t' l'.dst.toNat k = byteAt t l.dst.toNat k

/-- Without a result byte STATUS alone is seen. -/
theorem sameResult_of_no_bytes {l l' : Latched} {t t' : State} (hs : t'.status = t.status) (h : t.outlen = 0)
    (h' : t'.outlen = 0) : SameResult l l' t t' := by
  refine ⟨hs, h'.trans h.symm, fun k hk => ?_⟩
  rw [h] at hk
  cases hk

section
variable {s s' t t' : State} {l l' : Latched}

theorem sourceBytes_congr (hlen : l'.len = l.len)
    (hbytes : ∀ k, k < l.len.toNat → byteAt s' l'.src.toNat k = byteAt s l.src.toNat k) :
    sourceBytes l' s' = sourceBytes l s := by
  rw [sourceBytes, sourceBytes, hlen]
  exact readBytes_congr _ _ _ _ _ fun k hk => BitVec.eq_of_toNat_eq (hbytes k hk)

theorem storeText_sameResult (h : Runnable s l (encodeJob l)) (h' : Runnable s' l' (encodeJob l'))
    (hlen : l'.len = l.len) (hsrc : sourceBytes l' s' = sourceBytes l s) :
    SameResult l l' (storeText l s) (storeText l' s') := by
  refine ⟨rfl, by simp only [storeText, completeOk_outlen, hlen], fun k hk => ?_⟩
  have hk' : k < (encodeText (sourceBytes l s)).length := by
    rw [encodeText_sourceBytes_length]
    exact hk.trans_le (Nat.mod_le _ _)
  have hk'' : k < (encodeText (sourceBytes l' s')).length := by rwa [hsrc]
  rw [byteAt_storeText h.memWf h.clear hk', byteAt_storeText h'.memWf h'.clear hk'']
  simp only [hsrc]

theorem storeDecoded_sameResult {bytes : List Byte} {pad : Nat} (h : Runnable s l (decodeJob l))
    (h' : Runnable s' l' (decodeJob l')) (hlen : l'.len = l.len)
    (hsize : bytes.length = decMax l.len.toNat - pad) :
    SameResult l l' (storeDecoded l bytes pad s) (storeDecoded l' bytes pad s') := by
  refine ⟨rfl, by simp only [storeDecoded, completeOk_outlen, hlen], fun k hk => ?_⟩
  rw [storeDecoded_outlen_toNat, ← hsize] at hk
  rw [byteAt_storeDecoded h.memWf h.clear hsize hk, byteAt_storeDecoded h'.memWf h'.clear (hlen ▸ hsize) hk]

theorem exec_encode_sameResult (h : Runnable s l (encodeJob l)) (h' : Runnable s' l' (encodeJob l'))
    (hlen : l'.len = l.len) (hsrc : sourceBytes l' s' = sourceBytes l s) (ht : exec .encode s = .next t)
    (ht' : exec .encode s' = .next t') : SameResult l l' t t' := by
  rcases Nat.eq_zero_or_pos l.len.toNat with h0 | h0
  · cases (exec_encode_of_empty h.phase h0).symm.trans ht
    cases (exec_encode_of_empty h'.phase (hlen ▸ h0)).symm.trans ht'
    exact sameResult_of_no_bytes rfl rfl rfl
  · cases (exec_encode_backed h.phase h0 h.clear h.backed).symm.trans ht
    cases (exec_encode_backed h'.phase (hlen ▸ h0) h'.clear h'.backed).symm.trans ht'
    exact storeText_sameResult h h' hlen hsrc

theorem exec_decode_sameResult (h : Runnable s l (decodeJob l)) (h' : Runnable s' l' (decodeJob l'))
    (hlen : l'.len = l.len) (hsrc : sourceBytes l' s' = sourceBytes l s) (ht : exec .decode s = .next t)
    (ht' : exec .decode s' = .next t') : SameResult l l' t t' := by
  cases hbad : badDecodeLength l.len.toNat with
  | true =>
    cases (exec_decode_of_bad_length h.phase hbad).symm.trans ht
    cases (exec_decode_of_bad_length h'.phase (hlen ▸ hbad)).symm.trans ht'
    exact sameResult_of_no_bytes rfl rfl rfl
  | false =>
    obtain ⟨hne, h4⟩ := (badDecodeLength_eq_false _).1 hbad
    have h0 : 0 < l.len.toNat := Nat.pos_of_ne_zero hne
    have hsame : decodeText s'.platform (sourceBytes l' s') = decodeText s.platform (sourceBytes l s) := by
      rw [hsrc, decodeText_platform]
    have h0' : 0 < l'.len.toNat := hlen ▸ h0
    have h4' : l'.len.toNat % 4 = 0 := hlen ▸ h4
    cases hv : decodeText s.platform (sourceBytes l s) with
    | rejected pos c =>
      cases (exec_decode_rejected h.phase h0 h4 h.clear h.backed hv).symm.trans ht
      cases (exec_decode_rejected h'.phase h0' h4' h'.clear h'.backed (hsame.trans hv)).symm.trans ht'
      exact sameResult_of_no_bytes rfl rfl rfl
    | accepted bytes pad =>
      cases (exec_decode_accepted h.phase h0 h4 h.clear h.backed hv).symm.trans ht
      cases (exec_decode_accepted h'.phase h0' h4' h'.clear h'.backed (hsame.trans hv)).symm.trans ht'
      exact storeDecoded_sameResult h h' hlen (sourceBytes_accepted_size h0 h4 hv).1

end

/-- Settles O45: the outcome is computed from the source bytes, and the addresses say only where they lie. -/
theorem alignmentIsNotObservable : Obligations.AlignmentIsNotObservable := by
  intro s s' t t' l l' i j j' hp hp' hw hw' hlen hij hc hc' hb hb' hbytes ht ht'
  have hrun : Runnable s l j := ⟨hp, hw, hc, hb⟩
  have hrun' : Runnable s' l' j' := ⟨hp', hw', hc', hb'⟩
  have hsrc := sourceBytes_congr hlen hbytes
  rcases hij with ⟨rfl, rfl, rfl⟩ | ⟨rfl, rfl, rfl⟩
  · exact exec_encode_sameResult hrun hrun' hlen hsrc ht ht'
  · exact exec_decode_sameResult hrun hrun' hlen hsrc ht ht'

end Sys2Proof.Machine
end

section
/-! ## How a running command ends (60_exceptions.md R200 to R207)

Each way in which a command's meaning can answer, said once, and from it what a failure and a programmer error leave
behind. -/

namespace Sys2Proof.Machine

/-- The operations with a data check: the only ones that report a data-validity failure (R202). -/
def ChecksData (i : Instr) : Prop := (∃ f, i = .dec4 f) ∨ (∃ f, i = .dec8 f) ∨ i = .decode

/-- The answers of a command that runs at `s` with the latched copies `l`: one of the three completions (R201 to R203), a
programmer error being one of the state as it was; or, of a buffer command alone, a held Engine (20_memory.md R58) or a
refusal by the platform (R51, R57). -/
inductive Answers (i : Instr) (s : State) (l : Latched) : Out → Prop
  | ok (n : Nat) (u : State) : Answers i s l (.next (completeOk n u))
  | fail (c : FailCause) (u : State) (hi : ChecksData i) : Answers i s l (.next (completeFail c u))
  | perr (c : PerrCause) : Answers i s l (.next (completePerr c s))
  | encodeHeld (hi : i = .encode) : Answers i s l (.next (hang l s))
  | decodeHeld (hi : i = .decode) : Answers i s l (.next (hang l (spend 1 s)))
  | refused (r : Refusal) (hi : i = .encode ∨ i = .decode) (hr : r = .registerBlockOverlap ∨ r = .sideEffectLocation) :
      Answers i s l (.refused r)

/-! ### The words of the completions (R205) -/

/-- The values of STATUS that a completion leaves. -/
def completionWords : List Word := [0x02, 0x16, 0x26, 0x8A, 0x9A, 0xAA, 0xBA]

theorem statusFail_eq (c : FailCause) : statusFail c = 0x16 ∨ statusFail c = 0x26 := by cases c <;> decide

theorem statusPerr_mem (c : PerrCause) : statusPerr c ∈ [(0x8A : Word), 0x9A, 0xAA, 0xBA] := by cases c <;> decide

theorem statusOk_mem_completionWords : statusOk ∈ completionWords := by decide

theorem statusFail_mem_completionWords (c : FailCause) : statusFail c ∈ completionWords := by cases c <;> decide

theorem statusPerr_mem_completionWords (c : PerrCause) : statusPerr c ∈ completionWords := by cases c <;> decide

/-! ### The answer of each command -/

section
variable {s : State} {l : Latched} (hp : s.phase = .busy l)
include hp

theorem exec_enc3_answers (n : BitVec 2) : Answers (.enc3 n) s l (exec (.enc3 n) s) := by
  by_cases hn : n = 0
  · rw [exec, execEnc3, onCommand_busy hp, if_pos hn]; exact .perr _
  · rw [exec_enc3 hp hn]; exact .ok _ _

theorem exec_dec4_answers (f : Bool) : Answers (.dec4 f) s l (exec (.dec4 f) s) := by
  cases h : legal4 (quadOfWord l.din[0]) f with
  | illegal i => rw [exec_dec4_of_illegal hp rfl h]; exact .fail _ _ (.inl ⟨f, rfl⟩)
  | legal pad => rw [exec_dec4_of_legal hp rfl h]; exact .ok _ _

theorem exec_dec8_answers (f : Bool) : Answers (.dec8 f) s l (exec (.dec8 f) s) := by
  have hi : ChecksData (.dec8 f) := .inr (.inl ⟨f, rfl⟩)
  cases h : legal4 (quadOfWord l.din[0]) false with
  | illegal i => rw [exec_dec8_of_illegal_first hp rfl h]; exact .fail _ _ hi
  | legal p =>
    obtain ⟨-, -, -, -, rfl⟩ := (legal4_nonfinal_iff _ _).1 h
    cases h' : legal4 (quadOfWord l.din[1]) f with
    | illegal i => rw [exec_dec8_of_illegal_second hp rfl rfl h h']; exact .fail _ _ hi
    | legal pad => rw [exec_dec8_of_legal hp rfl rfl h h']; exact .ok _ _

theorem exec_encode_answers : Answers .encode s l (exec .encode s) := by
  rw [exec]
  rcases execEncode_cases s l hp with ⟨c, h⟩ | ⟨r, hr, h⟩ | h | ⟨-, -, -, h⟩ <;> rw [h]
  · exact .perr c
  · exact .refused r (.inl rfl) (platformRefusal_some _ _ r hr)
  · exact .encodeHeld rfl
  · exact .ok _ _

theorem exec_decode_answers : Answers .decode s l (exec .decode s) := by
  have hi : ChecksData .decode := .inr (.inr rfl)
  rw [exec]
  rcases execDecode_cases s l hp with ⟨-, h⟩ | ⟨c, h⟩ | ⟨r, hr, h⟩ | ⟨-, -, -, h⟩ <;> rw [h]
  · exact .fail _ _ hi
  · exact .perr c
  · exact .refused r (.inr rfl) (platformRefusal_some _ _ r hr)
  · rcases decodeData_cases l (decodeJob l) s with hd | ⟨pos, c, -, hd⟩ | ⟨bytes, pad, -, hd⟩ <;> rw [hd]
    · exact .decodeHeld rfl
    · exact .fail c _ hi
    · exact .ok _ _

theorem exec_answers (i : Instr) : Answers i s l (exec i s) := by
  cases i with
  | flookup => rw [exec_flookup hp]; exact .ok _ _
  | rlookup => rw [exec_rlookup hp]; exact .ok _ _
  | enc3 n => exact exec_enc3_answers hp n
  | enc12 => rw [exec_enc12 hp]; exact .ok _ _
  | dec4 f => exact exec_dec4_answers hp f
  | dec8 f => exact exec_dec8_answers hp f
  | aclass dir => rw [exec_aclass dir hp]; exact .ok _ _
  | encode => exact exec_encode_answers hp
  | decode => exact exec_decode_answers hp

end

/-- Settles O10: the three completions leave the Engine Idle with a word of R205, and the other answers are those of the
buffer commands. -/
theorem runningCommandCompletesOrIsHeld : Obligations.RunningCommandCompletesOrIsHeld := by
  intro i s l hp
  have h := exec_answers hp i
  generalize exec i s = o at h ⊢
  cases h with
  | ok n u => exact .inl ⟨_, rfl, rfl, statusOk_mem_completionWords⟩
  | fail c u => exact .inl ⟨_, rfl, rfl, statusFail_mem_completionWords c⟩
  | perr c => exact .inl ⟨_, rfl, rfl, statusPerr_mem_completionWords c⟩
  | encodeHeld hi => exact .inr (.inl ⟨hi, rfl⟩)
  | decodeHeld hi => exact .inr (.inr (.inl ⟨hi, rfl⟩))
  | refused r hi hr => exact .inr (.inr (.inr ⟨hi, hr.imp (congrArg _) (congrArg _)⟩))

/-- Settles O47: of the answers with a next state, only `completeFail` has FAIL in STATUS. -/
theorem onlyDecodeOperationsFail : Obligations.OnlyDecodeOperationsFail := by
  intro i s t l hp hs ht hfail
  have h := exec_answers hp i
  rw [ht] at h
  cases h with
  | ok n u => cases flags_ok.1.symm.trans hfail
  | fail c u hi => exact ⟨hi, rfl, rfl, statusFail_eq c⟩
  | perr c => cases (fail_flag_perr c).symm.trans hfail
  | encodeHeld => rw [hang_status, hs] at hfail; cases hfail
  | decodeHeld => rw [hang_status, spend_status, hs] at hfail; cases hfail

/-- Settles O48: of the answers with a next state, only `completePerr` has PERR in STATUS, and it is of the state as it
was. -/
theorem programmerErrorsChangeOnlyStatusAndOutlen : Obligations.ProgrammerErrorsChangeOnlyStatusAndOutlen := by
  intro i s t l hp hs ht hperr
  have h := exec_answers hp i
  rw [ht] at h
  cases h with
  | ok n u => cases flags_ok.2.symm.trans hperr
  | fail c u => cases (perr_flag_fail c).symm.trans hperr
  | perr c => exact ⟨rfl, statusPerr_mem c⟩
  | encodeHeld => rw [hang_status, hs] at hperr; cases hperr
  | decodeHeld => rw [hang_status, spend_status, hs] at hperr; cases hperr

end Sys2Proof.Machine
end

section
/-! ## When a running command moves (10_state.md R23, R35; 60_exceptions.md R200)

The Engine's turn, listed or due when none is listed (log 4), and the polls of a Host before it. -/

namespace Sys2Proof.Machine

section
variable {s : State} {l : Latched} {i : Instr}

theorem engineTurn_of_instr (hp : s.phase = .busy l) (hd : decode l.cw = .instr i) : engineTurn s = exec i s := by
  rw [engineTurn, hp]
  simp only [hd]

theorem step_engine_of_instr {rest : List Turn} (hp : s.phase = .busy l) (hd : decode l.cw = .instr i)
    (ht : s.turns = .engine :: rest) : step s = exec i { s with turns := rest } := by
  rw [step_listed ht, takeTurn, engineTurn_of_instr (s := { s with turns := rest }) hp hd]

theorem step_unlisted_of_instr (hp : s.phase = .busy l) (hd : decode l.cw = .instr i) (ht : s.turns = []) :
    step s = exec i s := by
  rw [step_unlisted ht, ownTurn, hp]
  exact engineTurn_of_instr hp hd

end

/-- Settles O7: `withFetchWord` issues the word and lists the Engine's turn. -/
theorem stepRunsTheDecodedCommand : Obligations.StepRunsTheDecodedCommand := by
  refine ⟨fun s l i rest => step_engine_of_instr, fun s l i => step_unlisted_of_instr, fun s w i hw hd => ?_⟩
  have hword : s.withFetchWord 32 w = withIssued (BitVec.ofNat 32 w) s := by
    rw [State.withFetchWord, Nat.mod_eq_of_lt (b := 2 ^ 32) hw]
  rw [hword]
  exact step_engine_of_instr (l := latchOperands (BitVec.ofNat 32 w) s) rfl hd rfl

/-- A completion has DONE and not BUSY in STATUS (60_exceptions.md R201 to R203, R205). -/
theorem flags_of_mem_completionWords {st : Word} (h : st ∈ completionWords) :
    doneFlag st = true ∧ busyFlag st = false := by
  fin_cases h <;> exact ⟨rfl, rfl⟩

/-- A group command is neither held nor refused, so it completes. -/
theorem exec_group_completes {i : Instr} {s : State} {l : Latched} (hp : s.phase = .busy l) (he : i ≠ .encode)
    (hd : i ≠ .decode) :
    ∃ t, exec i s = .next t ∧ t.phase = .idle ∧ doneFlag t.status = true ∧ busyFlag t.status = false := by
  rcases runningCommandCompletesOrIsHeld i s l hp with ⟨t, ht, hidle, hst⟩ | ⟨hi, -⟩ | ⟨hi, -⟩ | ⟨hi, -⟩
  · exact ⟨t, ht, hidle, flags_of_mem_completionWords hst⟩
  · exact absurd hi he
  · exact absurd hi hd
  · exact absurd hi (not_or.2 ⟨he, hd⟩)

/-- Settles O12, by induction on the number of polls: a poll leaves the command running. -/
theorem groupCommandCompletesAfterPolls : Obligations.GroupCommandCompletesAfterPolls := by
  intro k
  induction k with
  | zero =>
    intro s l i hp hdec he hd ht
    obtain ⟨t, hexec, hdone⟩ := exec_group_completes hp he hd
    exact ⟨t, run_succ_of_step ((step_unlisted_of_instr hp hdec ht).trans hexec), hdone⟩
  | succ k ih =>
    intro s l i hp hdec he hd ht
    have hstep := step_read_register (r := .status) ht
    rw [run_succ_of_step hstep]
    exact ih _ l i hp hdec he hd rfl

end Sys2Proof.Machine
end

section
/-! ## Accesses while a command is issued (70_reset_and_hazards.md R240 to R242)

BUSY = 1 holds of a running and of a stuck command alike: both have latched copies, and these decide what an access of a
Host or of another agent does. -/

namespace Sys2Proof.Machine

/-! ### Issued commands -/

theorem latchOf_of_issued {p : Phase} {l : Latched} (h : p = .busy l ∨ p = .stuck l) : latchOf p = some l := by
  rcases h with rfl | rfl
  · rfl
  · rfl

theorem status_of_issued {s : State} {l : Latched} (hinv : s.inv = true) (hp : s.phase = .busy l ∨ s.phase = .stuck l) :
    s.status = statusBusy := by
  rcases hp with hp | hp
  · exact ((inv_busy_iff hp).1 hinv).1
  · exact ((inv_stuck_iff hp).1 hinv).1

/-- The ranges of an issued ENCODE or DECODE, the length of the destination written out (00_scope.md R10, log 8). -/
theorem activeJob_of_issued {s : State} {l : Latched} {om : Nat} (hp : s.phase = .busy l ∨ s.phase = .stuck l)
    (hd : (decode l.cw = .instr .encode ∧ om = 4 * ((l.len.toNat + 2) / 3)) ∨
      (decode l.cw = .instr .decode ∧ om = 3 * (l.len.toNat / 4))) :
    activeJob s = some ⟨l.src.toNat, l.len.toNat, l.dst.toNat, om⟩ := by
  rw [activeJob, latchOf_of_issued hp, Option.bind_some, jobOf]
  rcases hd with ⟨hcw, rfl⟩ | ⟨hcw, rfl⟩
  · rw [hcw]; rfl
  · rw [hcw]; rfl

/-! ### Register accesses (R240, R241) -/

theorem writeReg_cmd_of_issued {s : State} {l : Latched} (v : Word) (h : latchOf s.phase = some l) :
    writeReg .cmd v s = .refused .commandWhileBusy := by
  rw [writeReg, h]

/-- Settles O9: offset 0 is CMD, and a running and a stuck command have latched copies. -/
theorem commandWhileBusyIsRefused : Obligations.CommandWhileBusyIsRefused := by
  intro s l w rest hp ht
  rw [step_write_register (r := .cmd) ht,
    writeReg_cmd_of_issued (s := { s with turns := rest }) w (latchOf_of_issued hp)]

/-- The registers that hold the results of a command (10_state.md R27, R28). -/
def isResult : Reg → Bool
  | .outlen => true
  | .dout _ => true
  | _ => false

/-- What a read gives while BUSY = 1: of a result register any value, of another what it gives while Idle (R241). -/
def busyValue (s : State) (r : Reg) : Word := if isResult r then freeWord s.draws else regValue s r

/-- The free values a read uses up while BUSY = 1 (R241; log 3). -/
def busyReadDraws (r : Reg) : Nat := if isResult r then 4 else 0

theorem readResult_of_issued {s : State} {l : Latched} (v : Word) (k : Nat) (h : latchOf s.phase = some l) :
    readResult v k s = spend 4 (setTemp k (freeWord s.draws) s) := by
  rw [readResult, h]

theorem readReg_of_issued {s : State} {l : Latched} (r : Reg) (k : Nat) (h : latchOf s.phase = some l) :
    readReg r k s = spend (busyReadDraws r) (setTemp k (busyValue s r) s) := by
  cases r with
  | outlen => exact readResult_of_issued _ k h
  | dout i => exact readResult_of_issued _ k h
  | _ => rfl

/-- Settles O16: the read leaves `busyValue` in the temporary and uses up `busyReadDraws`; STATUS is 1 by the
invariant. -/
theorem resultReadsWhileBusyAreFree : Obligations.ResultReadsWhileBusyAreFree := by
  intro s l r k rest hinv hp ht
  obtain ⟨-, -, htemps⟩ := (inv_iff s).1 hinv
  have hstatus := status_of_issued hinv hp
  have hvalue : tempValue (setTemp k (busyValue { s with turns := rest } r) { s with turns := rest }) k =
      busyValue { s with turns := rest } r := tempValue_setTemp_self k _ _ htemps
  refine ⟨_, (step_read_register ht).trans (congrArg _ (readReg_of_issued r k (latchOf_of_issued hp))),
    ?_, ?_, ?_, ?_, ?_, ?_, ?_, ?_, fun j hj => tempValue_setTemp_ne k j _ _ hj, rfl⟩
  · rintro (rfl | ⟨i, rfl⟩)
    · exact ⟨hvalue, rfl⟩
    · exact ⟨hvalue, rfl⟩
  · intro ho hdout
    cases r with
    | outlen => exact absurd rfl ho
    | dout i => exact absurd rfl (hdout i)
    | _ => rfl
  · rintro rfl; exact hvalue
  · rintro rfl; exact hvalue.trans hstatus
  · rintro rfl; exact hvalue
  · rintro rfl; exact hvalue
  · rintro rfl; exact hvalue
  · rintro i rfl; exact hvalue

/-! ### Memory accesses of other agents (R242; log 13) -/

theorem inSource_iff (j : Job) (a : Nat) : inSource j a = true ↔ j.src ≤ a ∧ a < j.src + j.len := by
  simp [inSource]

theorem inDest_iff (j : Job) (a : Nat) : inDest j a = true ↔ j.dst ≤ a ∧ a < j.dst + j.outMax := by
  simp [inDest]

section
variable {s : State} {j : Job} {a : Word} (hj : activeJob s = some j)
include hj

theorem foreignWrite_of_inRanges (v : Byte) (ha : inRanges j a.toNat) :
    foreignWrite a v s = .refused .bufferInUse := by
  rw [inRanges, ← inSource_iff, ← inDest_iff, ← Bool.or_eq_true] at ha
  rw [foreignWrite, hj, Option.any_some, if_pos ha]

theorem foreignRead_of_inDest (k : Nat) (ha : inDest j a.toNat = true) :
    foreignRead a k s = .next (spend 1 (setTemp k ((Config.freeByte s.draws).setWidth 32) s)) := by
  rw [foreignRead, hj, Option.any_some, if_pos ha]

theorem foreignRead_of_not_inDest (k : Nat) (ha : ¬ inDest j a.toNat = true)
    (ho : ordinary s.platform a.toNat = true) :
    foreignRead a k s = .next (setTemp k ((readByte s.mem a.toNat).setWidth 32) s) := by
  rw [foreignRead, hj, Option.any_some, if_neg ha, if_pos ho]

end

/-- Settles O20: the ranges are those of the issued command, and the destination is asked about before ordinary memory. -/
theorem foreignAccessesWhileABufferCommandRuns : Obligations.ForeignAccessesWhileABufferCommandRuns := by
  intro s l om a v k rest hinv hp hd
  obtain ⟨-, -, htemps⟩ := (inv_iff s).1 hinv
  have hj := activeJob_of_issued (s := { s with turns := rest }) hp hd
  refine ⟨fun ha ht => ?_, fun ha ht => ?_, fun _ hn ho ht => ?_⟩
  · exact (step_listed ht).trans (foreignWrite_of_inRanges hj v ha)
  · exact ⟨_, (step_listed ht).trans (foreignRead_of_inDest hj k ((inDest_iff _ _).2 ha)),
      tempValue_setTemp_self k _ _ htemps, rfl⟩
  · exact ⟨_, (step_listed ht).trans (foreignRead_of_not_inDest hj k (mt (inDest_iff _ _).1 hn) ho),
      tempValue_setTemp_self k _ _ htemps, rfl⟩

end Sys2Proof.Machine
end

section
/-! ## Reset (70_reset_and_hazards.md R230, R243)

Reset clears the register block; of the rest it touches memory and the count of free values alone, and these only where a
buffer command is abandoned. -/

namespace Sys2Proof.Machine

theorem abandonBuffers_frame (s : State) :
    abandonBuffers s = { s with mem := (abandonBuffers s).mem, draws := (abandonBuffers s).draws } := by
  rw [abandonBuffers]
  split
  · rfl
  · rfl

theorem resetEngine_frame (s : State) : resetEngine s =
    { s with
      mem := (resetEngine s).mem, draws := (resetEngine s).draws, status := 0, src := 0, dst := 0, len := 0
      outlen := 0, din := #v[0, 0, 0], dout := #v[0, 0, 0, 0], phase := .idle } := by
  conv_lhs => rw [resetEngine, abandonBuffers_frame]
  rfl

theorem resetEngine_mem_of_no_job {s : State} (h : activeJob s = none) : (resetEngine s).mem = s.mem := by
  rw [resetEngine, abandonBuffers, h]

/-- Every destination byte of the abandoned command that lies in the space takes a free value (R243; log 8). -/
theorem readByte_resetEngine_dest {s : State} {j : Job} {k : Nat} (hj : activeJob s = some j)
    (hw : Memory.wf s.mem = true) (hk : k < j.outMax) (hin : j.dst + k < Config.memorySize) :
    readByte (resetEngine s).mem (j.dst + k) = Config.freeByte (s.draws + k) := by
  rw [resetEngine, abandonBuffers, hj]
  exact readByte_scramble_in _ _ k s hw (by omega) (by omega)

theorem resetEngine_sameOutside {s : State} {j : Job} (hj : activeJob s = some j) :
    sameOutside j.dst j.outMax s (resetEngine s) := by
  intro x hx
  refine resetEngine_mem s x fun j' hj' => ?_
  cases hj.symm.trans hj'
  rw [← Bool.not_eq_true, inDest_iff]
  omega

/-- Settles O51: the frame of reset, and its memory by whether a buffer command is abandoned. -/
theorem resetClearsTheBlockAndAbandonsTheCommand : Obligations.ResetClearsTheBlockAndAbandonsTheCommand := by
  intro s rest ht
  refine ⟨resetEngine { s with turns := rest }, step_listed ht, resetEngine_frame _,
    fun l om hp hd => ?_, fun hfree => ?_⟩
  · have hj := activeJob_of_issued (s := { s with turns := rest }) hp hd
    exact ⟨resetEngine_sameOutside hj, fun hw k hk hin => readByte_resetEngine_dest hj hw hk hin⟩
  · exact resetEngine_mem_of_no_job (activeJob_eq_none (s := { s with turns := rest }) hfree)

end Sys2Proof.Machine
end

section
/-! ## Results of a completed command (70_reset_and_hazards.md R245)

A turn that leaves an Idle Engine Idle is reset, or another agent's memory write, or it keeps the results and memory. -/

namespace Sys2Proof.Machine

/-- The result registers and memory are as they were. -/
def ResultsKept (s t : State) : Prop :=
  t.status = s.status ∧ t.outlen = s.outlen ∧ t.dout = s.dout ∧ t.mem = s.mem

theorem ResultsKept.refl (s : State) : ResultsKept s s := ⟨rfl, rfl, rfl, rfl⟩

/-! ### Turns that keep the results in every phase -/

/-- A bus read that answers a next state has read a register (10_state.md R22 (d), (e)). -/
theorem busRead_next {width : Nat} {offset : BitVec 6} {k : Nat} {s t : State}
    (h : busRead width offset k s = .next t) : ∃ v n, t = spend n (setTemp k v s) := by
  rw [busRead] at h
  split at h <;> cases h
  exact readReg_shape _ k s

theorem busRead_resultsKept {width : Nat} {offset : BitVec 6} {k : Nat} {s t : State}
    (h : busRead width offset k s = .next t) : ResultsKept s t := by
  obtain ⟨v, n, rfl⟩ := busRead_next h
  exact .refl s

theorem foreignRead_resultsKept {a : Word} {k : Nat} {s t : State} (h : foreignRead a k s = .next t) :
    ResultsKept s t := by
  rw [foreignRead] at h
  split_ifs at h <;> cases h
  · exact .refl s
  · exact .refl s

theorem branch_resultsKept {taken : Bool} {target : Nat} {s t : State} (h : branch taken target s = .next t) :
    ResultsKept s t := by
  obtain ⟨n, rfl⟩ := branch_next h
  exact .refl s

theorem foreignWrite_next {a : Word} {v : Byte} {s t : State} (h : foreignWrite a v s = .next t) :
    t = storeBytes a.toNat [v] s := by
  rw [foreignWrite] at h
  split_ifs at h
  cases h
  rfl

/-! ### Turns at an Idle Engine that leave it Idle -/

section
variable {s t : State} (hp : s.phase = .idle)
include hp

/-- A write to CMD issues, and no other register write touches the results (10_state.md R22 (f), R23). -/
theorem writeReg_resultsKept {r : Reg} {v : Word} (h : writeReg r v s = .next t) (ht : t.phase = .idle) :
    ResultsKept s t := by
  cases r with
  | cmd => rw [writeReg_cmd_of_idle v hp] at h; cases h; cases ht
  | _ => cases h; exact .refl s

theorem busWrite_resultsKept {width : Nat} {offset : BitVec 6} {v : Word} (h : busWrite width offset v s = .next t)
    (ht : t.phase = .idle) : ResultsKept s t := by
  rw [busWrite] at h
  split at h
  · exact writeReg_resultsKept hp h ht
  · cases h

theorem runLine_resultsKept {line : Line} (h : runLine line s = .next t) (ht : t.phase = .idle) :
    ResultsKept s t := by
  cases line with
  | wr r v => exact busWrite_resultsKept (s := nextLine s) hp h ht
  | rd r k => exact busRead_resultsKept (s := nextLine s) h
  | btst k i target => exact branch_resultsKept h
  | beq k v target => exact branch_resultsKept h
  | bne k v target => exact branch_resultsKept h
  | jmp target => exact branch_resultsKept (taken := true) h
  | halt => cases h; exact .refl s
  | label name => cases h; exact .refl s

theorem scriptTurn_resultsKept (h : scriptTurn s = .next t) (ht : t.phase = .idle) : ResultsKept s t := by
  rw [scriptTurn] at h
  split at h
  · exact runLine_resultsKept hp h ht
  · cases h; exact .refl s

theorem engineTurn_idle : engineTurn s = .next s := by rw [engineTurn, hp]

theorem engineAccess_idle : engineAccess s = s := by rw [engineAccess, hp]

theorem takeTurn_idle_cases {turn : Turn} (h : takeTurn turn s = .next t) (ht : t.phase = .idle) :
    turn = .reset ∨ (∃ a v, turn = .memWrite a v ∧ t = storeBytes a.toNat [v] s) ∨ ResultsKept s t := by
  cases turn with
  | engine => rw [takeTurn, engineTurn_idle hp] at h; cases h; exact .inr (.inr (.refl s))
  | engineAccess => rw [takeTurn, engineAccess_idle hp] at h; cases h; exact .inr (.inr (.refl s))
  | script => exact .inr (.inr (scriptTurn_resultsKept hp h ht))
  | write width offset v => exact .inr (.inr (busWrite_resultsKept hp h ht))
  | read width offset k => exact .inr (.inr (busRead_resultsKept h))
  | memWrite a v => exact .inr (.inl ⟨a, v, rfl, foreignWrite_next h⟩)
  | memRead a k => exact .inr (.inr (foreignRead_resultsKept h))
  | reset => exact .inl rfl

end

/-- Settles O13: the listed turn, or the script's where none is listed, by `takeTurn_idle_cases`. -/
theorem resultsStayUntilIssueOrReset : Obligations.ResultsStayUntilIssueOrReset := by
  intro s t hp h ht hreset
  cases hs : s.turns with
  | nil =>
    rw [step_unlisted hs, ownTurn, hp] at h
    obtain ⟨hstatus, houtlen, hdout, hmem⟩ := scriptTurn_resultsKept hp h ht
    exact ⟨hstatus, houtlen, hdout, fun _ => hmem⟩
  | cons turn rest =>
    rw [step_listed hs] at h
    rw [hs] at hreset
    rcases takeTurn_idle_cases (s := { s with turns := rest }) hp h ht with rfl | ⟨a, v, rfl, rfl⟩ | hkept
    · exact absurd rfl hreset
    · exact ⟨rfl, rfl, rfl, fun hw => absurd rfl (hw a v)⟩
    · obtain ⟨hstatus, houtlen, hdout, hmem⟩ := hkept
      exact ⟨hstatus, houtlen, hdout, fun _ => hmem⟩

end Sys2Proof.Machine
end
